-- ==== Sys2Proof/Word.lean ====
section
/-!
DEFINITION. The word types of the core (`spec/00_scope.md` R5, R8): state words, 64-bit counters and operands, and the
72-bit words of the command and response ports. Every value is unsigned and bit 0 is the least significant bit.
-/

namespace Sys2Proof

/-- A state word, a seed or a draw result: 32 bits (R5). -/
abbrev Word := BitVec 32

/-- The draw counter, an `ADVANCE` count, or the data field of a response: 64 bits (R5, R66). -/
abbrev DWord := BitVec 64

/-- A command word or a response word: 72 bits (R62, R66). -/
abbrev PortWord := BitVec 72

end Sys2Proof
end

