-- ==== Sys2Proof/Syntax.lean ====
section
/-!
DEFINITION. The commands of the core, one constructor per row of `spec/opcode_table.json`, and the lines of the text
form of a command sequence (`spec/30_encoding.md` R63, R70).
-/

namespace Sys2Proof

/-- The four commands (R2, R63). Operands have the width of their field (R64). -/
inductive Instr where
  /-- `SEED seed` (R91). -/
  | seed (seed : Word)
  /-- `DRAW` (R122). -/
  | draw
  /-- `ADVANCE count` (R130). -/
  | advance (count : DWord)
  /-- `TOTAL` (R145). -/
  | total
  deriving DecidableEq, Repr

/-- A command as it is written in text (R70): numbers are not yet known to fit their field. -/
inductive AsmLine where
  /-- `SEED number`. -/
  | seed (n : Nat)
  /-- `DRAW`. -/
  | draw
  /-- `ADVANCE number`. -/
  | advance (n : Nat)
  /-- `TOTAL`. -/
  | total
  /-- `.word 0x<18 hex digits>`, a raw command word, the only way to write an illegal one. -/
  | raw (n : Nat)
  deriving DecidableEq, Repr

end Sys2Proof
end

