-- ==== Sys2Proof/WellFormed.lean ====
section
/-!
DEFINITION. When a command, as syntax, is well formed: its operand fits the field that `spec/30_encoding.md` R64 gives
it. For `Instr` the operand types say so already ("Every value of a used operand field is legal"); for a line of text
R70 asks for the range checks.
-/

namespace Sys2Proof

/-- The operand fits its field (R64). True of every `Instr`: `Laws.Instr_wellFormed`. -/
def Instr.wellFormed : Instr → Bool
  | .seed s => decide (s.toNat < 2 ^ 32)
  | .draw => true
  | .advance c => decide (c.toNat < 2 ^ 64)
  | .total => true

/-- R70: "`SEED`'s number must be in 0..2^32-1 and `ADVANCE`'s in 0..2^64-1"; a raw word has 72 bits. -/
def AsmLine.wellFormed : AsmLine → Bool
  | .seed n => decide (n < 2 ^ 32)
  | .draw => true
  | .advance n => decide (n < 2 ^ 64)
  | .total => true
  | .raw n => decide (n < 2 ^ 72)

end Sys2Proof
end

