-- ==== Sys2Proof/Decode.lean ====
section
/-!
DEFINITION. The command word (`spec/30_encoding.md` sections 2 to 4): its two fields (R62), the decoder (R72), the
encoder (R63), and the opcode map as masks and match values (R63), which says a second time which words are commands.
-/

namespace Sys2Proof

/-- `op = w[71:64]` (R62). -/
def opField (w : PortWord) : BitVec 8 := w.extractLsb' 64 8

/-- `arg = w[63:0]` (R62). -/
def argField (w : PortWord) : DWord := w.extractLsb' 0 64

/-- `seed = arg[31:0]` (R64). -/
def seedField (w : PortWord) : Word := w.extractLsb' 0 32

/-- `arg[63:32]`, reserved in `SEED` (R64). -/
def seedReservedField (w : PortWord) : Word := w.extractLsb' 32 32

/-- Why a word is illegal: the four items of R65. -/
inductive DecodeError where
  /-- Item 1: `op` is 0x00 or 0x05..0xFF. -/
  | unassignedOpcode (op : BitVec 8)
  /-- Item 2: `SEED` with `arg[63:32] != 0`. -/
  | seedReservedBits
  /-- Item 3: `DRAW` with `arg != 0`. -/
  | drawReservedBits
  /-- Item 4: `TOTAL` with `arg != 0`. -/
  | totalReservedBits
  deriving DecidableEq, Repr

/-- The decoder of R72: total on 72-bit words, using no state. -/
def decode (w : PortWord) : Except DecodeError Instr :=
  if opField w = 0x01#8 then
    if seedReservedField w = 0#32 then .ok (.seed (seedField w)) else .error .seedReservedBits
  else if opField w = 0x02#8 then
    if argField w = 0#64 then .ok .draw else .error .drawReservedBits
  else if opField w = 0x03#8 then
    .ok (.advance (argField w))
  else if opField w = 0x04#8 then
    if argField w = 0#64 then .ok .total else .error .totalReservedBits
  else .error (.unassignedOpcode (opField w))

/-- A command word from its two fields (R62). -/
def commandWord (op : BitVec 8) (arg : DWord) : PortWord := op ++ arg

/-- The word of a command (R63, R64): reserved bits are zero. -/
def encode : Instr → PortWord
  | .seed s => commandWord 0x01#8 (s.zeroExtend 64)
  | .draw => commandWord 0x02#8 0#64
  | .advance c => commandWord 0x03#8 c
  | .total => commandWord 0x04#8 0#64

/-- A row of the opcode map (R63). -/
structure OpcodeRow where
  mnemonic : String
  mask : PortWord
  value : PortWord
  deriving DecidableEq, Repr

/-- The opcode map of R63 (`mask` and `match` columns), in the table's order. -/
def opcodeRows : List OpcodeRow :=
  [ ⟨"SEED", 0xFFFFFFFFFF00000000#72, 0x010000000000000000#72⟩,
    ⟨"DRAW", 0xFFFFFFFFFFFFFFFFFF#72, 0x020000000000000000#72⟩,
    ⟨"ADVANCE", 0xFF0000000000000000#72, 0x030000000000000000#72⟩,
    ⟨"TOTAL", 0xFFFFFFFFFFFFFFFFFF#72, 0x040000000000000000#72⟩ ]

/-- R63: "`w` is the command of a row exactly when `(w AND mask) == match`". -/
def OpcodeRow.hits (r : OpcodeRow) (w : PortWord) : Bool := w &&& r.mask == r.value

/-- The name of a command in the opcode map. -/
def mnemonicOf : Instr → String
  | .seed _ => "SEED"
  | .draw => "DRAW"
  | .advance _ => "ADVANCE"
  | .total => "TOTAL"

/-- The 72-bit word whose low `nbits` bits are those of `w`, the bits above them zero. -/
def tableWord (nbits w : Nat) : PortWord := BitVec.ofNat 72 (w % 2 ^ nbits)

/-- What the decoder reads from an opcode-table word. A command is ONE 72-bit word presented in parallel, numbered from
its least significant bit as the table numbers it, and no byte order is visible (R43, R62, log entry 11). -/
def decodeTableWord (nbits w : Nat) : Option Instr :=
  if w % 2 ^ nbits < 2 ^ 72 then (decode (tableWord nbits w)).toOption else none

end Sys2Proof
end

