-- ==== Sys2Proof/Config.lean ====
section
/-!
DEFINITION. What the spec leaves open: the open parameters of an implementation (`spec/00_scope.md` R7) and the free
values that stand for what the spec calls unspecified after a reset (`spec/10_state.md` R33). All are opaque constants,
so nothing can be proved of their values.
-/

namespace Sys2Proof

/-- `HAS_SKIP_ENGINE` (R7, R134): whether a skip-ahead engine is present.
It has no architectural effect, so no meaning reads it (log entry 9). -/
opaque Config.hasSkipEngine : Bool

/-- `TEMPER_STAGES` (R7, R119): pipeline registers inside the tempering transform, 0 to 4.
It has no architectural effect, so no meaning reads it (log entry 9). -/
opaque Config.temperStages : Fin 5

/-- `LAT_SEED` (R190). Timing is not modelled (log entries 3 and 9). -/
opaque Config.latSeed : Nat

/-- `LAT_DRAW` (R190), the latency of a draw that does not twist. -/
opaque Config.latDraw : Nat

/-- `LAT_TWIST` (R190), the extra latency of a draw that twists. -/
opaque Config.latTwist : Nat

/-- `LAT_ADVANCE(count)` (R190). -/
opaque Config.latAdvance : DWord → Nat

/-- `LAT_TOTAL` (R190). -/
opaque Config.latTotal : Nat

/-- What the `k`-th `rst` edge of a run leaves in `MT`: a free value (R33, R180, R182, log entry 2). -/
opaque Config.freeMT : Nat → Vector Word 624

/-- What the `k`-th `rst` edge of a run leaves in `CUR`: a free value (R33, R180, R182, log entry 2). -/
opaque Config.freeCUR : Nat → Fin 625

/-- What the `k`-th `rst` edge of a run leaves in `DC`: a free value (R33, R180, R182, log entry 2). -/
opaque Config.freeDC : Nat → DWord

end Sys2Proof
end

