-- ==== Sys2Proof/Machine/State.lean ====
section
/-!
DEFINITION. The state of the core: the four items of `spec/10_state.md` R20, the response port of
`spec/30_encoding.md` R60, and the model's own record of what the host drives and has received. Also why a step can
stop, and the state after reset.
-/

namespace Sys2Proof.Machine

/-- The status of a response (R67). The codes 0x03..0xFF are never produced and have no constructor (U6). -/
inductive Status where
  /-- `OK`: the command was executed as its rule says. -/
  | ok
  /-- `ERR_ILLEGAL`: the word was illegal, nothing was executed. -/
  | errIllegal
  /-- `ERR_UNSEEDED`: `DRAW`, `ADVANCE` or `TOTAL` while `SEEDED == 0`, nothing was executed. -/
  | errUnseeded
  deriving DecidableEq, Repr

/-- A response (R66): a status and 64 bits of data. Its 72-bit word is `responseWord`. -/
structure Response where
  status : Status
  data : DWord
  deriving DecidableEq, Repr

/-- The two exceptions of the core (R151). Both are responses: the machine goes on (R156). -/
inductive CoreException where
  /-- `IllegalCommand` (R154). -/
  | illegalCommand
  /-- `Unseeded` (R155). -/
  | unseeded
  deriving DecidableEq, Repr

/-- The source's `GeneratorState` (R20): what `SEED` creates and the draws change. -/
structure GeneratorState where
  /-- `MT[0..623]`, the state register file (R21). -/
  mt : Vector Word 624
  /-- `CUR`, the cursor counter, 0..624 (R23); 625..1023 are unrepresentable (U7). -/
  cur : Fin 625
  /-- `DC`, the draw counter (R26). -/
  dc : DWord
  deriving DecidableEq, Repr

/-- What the host drives at one rising edge of `clk` (the inputs of R60). -/
structure HostCycle where
  /-- `rst`. -/
  rst : Bool
  /-- `cmd_valid`. -/
  cmdValid : Bool
  /-- `cmd_word`, any 72-bit word (R192). -/
  cmdWord : PortWord
  /-- `rsp_ready`. -/
  rspReady : Bool
  deriving DecidableEq, Repr

/-- The state. Nothing else is architectural (R20, R29 to R32). -/
structure State where
  /-- `MT`, `CUR`, `DC` (R20). -/
  gen : GeneratorState
  /-- `SEEDED` (R28). -/
  seeded : Bool
  /-- The response port: `none` is `rsp_valid == 0`, `some r` is `rsp_valid == 1` with the word of `r` (R60, R61). -/
  rsp : Option Response
  /-- The model's own: what the host drives at the next rising edges, the next one first (log entry 5). -/
  host : List HostCycle
  /-- The model's own: the responses delivered so far, the oldest first (log entry 6). -/
  delivered : List Response
  /-- The model's own: how many `rst` edges there were, which selects the free values of the next one (log entry 2). -/
  resets : Nat
  deriving DecidableEq, Repr

/-- A step of this core never ends in a fault: "every operation is total" (R150), and the two error conditions are
responses after which the core is ready for the next command (R156). So there is no constructor, and nothing raises one. -/
inductive Fault where
  deriving DecidableEq, Repr

/-- Why a step can have no meaning. -/
inductive Refusal where
  /-- An instruction that has no meaning yet: raised by `exec`'s own arm and by nothing else; no arm raises it now. Safe. -/
  | notModelled (mnemonic : String)
  deriving DecidableEq, Repr

/-- The generator registers after reset. The spec leaves `MT`, `CUR` and `DC` unspecified (R33); zero is the model's
DESIGN CHOICE (log entry 1), and no rule reads it while `SEEDED == 0`. -/
def GeneratorState.atReset : GeneratorState where
  mt := Vector.replicate 624 0#32
  cur := 0
  dc := 0#64

/-- Right after reset (R33, R180): `SEEDED == 0`, no response on the port, the core idle. -/
def State.reset : State where
  gen := GeneratorState.atReset
  seeded := false
  rsp := none
  host := []
  delivered := []
  resets := 0

end Sys2Proof.Machine
end

