-- ==== Sys2Proof/Machine/Response.lean ====
section
/-!
DEFINITION. The response word (`spec/30_encoding.md` R66, R67) and the status of each exception
(`spec/60_exceptions.md` R151).
-/

namespace Sys2Proof.Machine

/-- The status codes of R67. -/
def statusCode : Status → BitVec 8
  | .ok => 0x00#8
  | .errIllegal => 0x01#8
  | .errUnseeded => 0x02#8

/-- `rsp_word`: `status` in bits 71:64, `data` in bits 63:0 (R66). -/
def responseWord (r : Response) : PortWord := statusCode r.status ++ r.data

/-- The status of an exception's response (R151). -/
def exceptionStatus : CoreException → Status
  | .illegalCommand => .errIllegal
  | .unseeded => .errUnseeded

end Sys2Proof.Machine
end

