-- ==== Sys2Proof/Machine/Ops.lean ====
section
/-!
DEFINITION. The named updates of State, the response of a command, and the one operation that takes an exception
(`spec/60_exceptions.md` R156). The spec has no return from an exception (R159), so there is none here.
-/

namespace Sys2Proof.Machine

/-- `MT`, `CUR`, `DC` replaced. -/
def State.setGen (s : State) (g : GeneratorState) : State := { s with gen := g }

/-- `SEEDED <- b`. -/
def State.setSeeded (s : State) (b : Bool) : State := { s with seeded := b }

/-- The response port replaced. -/
def State.setRsp (s : State) (r : Option Response) : State := { s with rsp := r }

/-- What the host drives next, replaced. -/
def State.setHost (s : State) (h : List HostCycle) : State := { s with host := h }

/-- The record of delivered responses replaced. -/
def State.setDelivered (s : State) (d : List Response) : State := { s with delivered := d }

/-- The count of `rst` edges replaced. -/
def State.setResets (s : State) (k : Nat) : State := { s with resets := k }

/-- `respond(status, data)` (R11): the response appears on the response port. -/
def respond (status : Status) (data : DWord) (s : State) : State := s.setRsp (some ⟨status, data⟩)

/-- `raise e` (R11, R156): no architectural state changes, the response carries the status of `e` and data 0, and the
core is then ready as after any response. -/
def raiseException (e : CoreException) (s : State) : State := respond (exceptionStatus e) 0#64 s

end Sys2Proof.Machine
end

