-- ==== Sys2Proof/Machine/Flags.lean ====
section
/-!
DEFINITION. The core has no arithmetic flags (`spec/10_state.md` R30). Its one status bit is `SEEDED`; this is the check
of it that `DRAW`, `ADVANCE` and `TOTAL` make before anything is written (`spec/60_exceptions.md` R155).
-/

namespace Sys2Proof.Machine

/-- `if SEEDED == 0: raise Unseeded()`, else go on with `k` (R155). -/
def requireSeeded (k : State → State) (s : State) : State :=
  if s.seeded then k s else raiseException .unseeded s

end Sys2Proof.Machine
end

