-- ==== Sys2Proof/Machine/Arith.lean ====
section
/-!
DEFINITION. The operators of `spec/00_scope.md` R10. All values are unsigned, so shifts are logical, and arithmetic
wraps silently. `XOR`, `AND` and `OR` are written `^^^`, `&&&` and `|||`.
-/

namespace Sys2Proof.Machine

/-- `lsr(a, k)`: logical right shift. -/
abbrev lsr (a : Word) (k : Nat) : Word := a >>> k

/-- `lsl32(a, k)`: left shift truncated to 32 bits. -/
abbrev lsl32 (a : Word) (k : Nat) : Word := a <<< k

/-- `mul32(a, b)`: the product modulo 2^32. -/
abbrev mul32 (a b : Word) : Word := a * b

/-- `add32(a, b)`: the sum modulo 2^32. -/
abbrev add32 (a b : Word) : Word := a + b

/-- `add64(a, b)`: the sum modulo 2^64. -/
abbrev add64 (a b : DWord) : DWord := a + b

end Sys2Proof.Machine
end

