-- ==== Sys2Proof/Machine/Operands.lean ====
section
/-!
DEFINITION. The operand forms: the index forms by which `MT` is reached (`spec/20_memory.md` R41) and the widening of a
draw result to the data field (`spec/30_encoding.md` R68). The operand fields of a command word are in `Decode.lean`.
-/

namespace Sys2Proof.Machine

/-- `j mod 624`: the only addressing mode. -/
def wrapIndex (j : Nat) : Fin 624 := ⟨j % 624, Nat.mod_lt j (by decide)⟩

/-- `MT[i]`: a read returns all 32 bits of one word (R42). -/
def readMT (mt : Vector Word 624) (i : Fin 624) : Word := mt.get i

/-- `MT[i] <- v`: a write replaces all 32 bits of one word (R42). -/
def writeMT (mt : Vector Word 624) (i : Fin 624) (v : Word) : Vector Word 624 := mt.set i.val v i.isLt

/-- `zext_64(t)` (R11, R68). -/
def zext64 (t : Word) : DWord := t.zeroExtend 64

end Sys2Proof.Machine
end

