-- ==== Sys2Proof/Machine/Params.lean ====
section
/-!
DEFINITION. The constants of `spec/00_scope.md` R6. They are fixed (R4). `N = 624` is written as a literal, since it is
part of the type of `MT`.
-/

namespace Sys2Proof.Machine

/-- `M`: index offset of the third twist operand. -/
abbrev shiftM : Nat := 397

/-- `MATRIX_A`: twist feedback constant. -/
abbrev matrixA : Word := 0x9908B0DF#32

/-- `UPPER_MASK`: selects bit 31. -/
abbrev upperMask : Word := 0x80000000#32

/-- `LOWER_MASK`: selects bits 30..0. -/
abbrev lowerMask : Word := 0x7FFFFFFF#32

/-- `TU`: tempering right shift 1. -/
abbrev temperU : Nat := 11

/-- `TD`: tempering mask 1, the identity mask (R116). -/
abbrev temperD : Word := 0xFFFFFFFF#32

/-- `TS`: tempering left shift 1. -/
abbrev temperS : Nat := 7

/-- `TB`: tempering mask 2. -/
abbrev temperB : Word := 0x9D2C5680#32

/-- `TT`: tempering left shift 2. -/
abbrev temperT : Nat := 15

/-- `TC`: tempering mask 3. -/
abbrev temperC : Word := 0xEFC60000#32

/-- `TL`: tempering right shift 2. -/
abbrev temperL : Nat := 18

/-- `F`: the seed multiplier, decimal 1812433253. -/
abbrev seedF : Word := 0x6C078965#32

end Sys2Proof.Machine
end

