-- ==== Sys2Proof/Machine/Generator.lean ====
section
/-!
DEFINITION. The internal operations, which have no opcode (`spec/00_scope.md` R2): `SeedWords` (`spec/40_seed.md` R90),
`Twist` (`spec/41_twist.md` R100 to R102), `Temper` and `DrawStep` (`spec/42_draw_temper.md` R115, R121). All are pure
functions of the generator registers (R32).
-/

namespace Sys2Proof.Machine

/-! ### Seeding -/

/-- One step of R90: `w[i]` from `w[i-1] = prev`. The shift applies to `prev` alone, then XOR, product, sum. -/
def seedNext (prev : Word) (i : Nat) : Word :=
  add32 (mul32 seedF (prev ^^^ lsr prev 30)) (BitVec.ofNat 32 i)

/-- `n` words of the recurrence of R90: `w`, and then those whose indices begin at `i`. -/
def seedFrom (w : Word) (i : Nat) : Nat → List Word
  | 0 => []
  | n + 1 => w :: seedFrom (seedNext w i) (i + 1) n

theorem length_seedFrom (w : Word) (i n : Nat) : (seedFrom w i n).length = n := by
  induction n generalizing w i with
  | zero => rfl
  | succ n ih => simp [seedFrom, ih]

/-- `SeedWords(s)` (R90): `w[0] = s`, and `w[i]` for `i` in 1..623. -/
def seedWords (s : Word) : Vector Word 624 :=
  ⟨(seedFrom s 1 624).toArray, by simp [length_seedFrom]⟩

/-- The Fresh state of `SEED s` (R91): `MT = SeedWords(s)`, `CUR = 624`, `DC = 0`. -/
def seedState (s : Word) : GeneratorState where
  mt := seedWords s
  cur := 624
  dc := 0#64

/-! ### The twist -/

/-- `y` of R100: the upper bit of `a` combined with the lower 31 bits of `b`. -/
def twistY (a b : Word) : Word := (a &&& upperMask) ||| (b &&& lowerMask)

/-- `g(a, b)` of R102: `lsr(y, 1) XOR (MATRIX_A if y[0] == 1 else 0)`. -/
def twistG (a b : Word) : Word :=
  lsr (twistY a b) 1 ^^^ (if (twistY a b).getLsbD 0 then matrixA else 0#32)

/-- `next` of R100, from `a = MT[i]`, `b = MT[(i+1) mod 624]` and `c = MT[(i+397) mod 624]`. -/
def twistNext (a b c : Word) : Word := c ^^^ twistG a b

/-- Consecutive twist steps whose three operands stand in three lists; it ends with the shortest. -/
def twistRun : List Word → List Word → List Word → List Word
  | a :: as, b :: bs, c :: cs => twistNext a b c :: twistRun as bs cs
  | _, _, _ => []

theorem length_twistRun (as bs cs : List Word) :
    (twistRun as bs cs).length = min as.length (min bs.length cs.length) := by
  induction as generalizing bs cs with
  | nil => simp [twistRun]
  | cons a as ih => cases bs <;> cases cs <;> simp [twistRun, ih]

/-- Steps 0..226: every operand is a word from before the twist (first line of R102). -/
def twistLow (old : List Word) : List Word := twistRun old (old.drop 1) (old.drop 397)

/-- Steps 227..453: the third operand is the NEW `MT[i-227]` (second line of R102), a word of `twistLow`. -/
def twistMid (old : List Word) : List Word := twistRun (old.drop 227) (old.drop 228) (twistLow old)

/-- Steps 454..623: the third operand is the NEW `MT[i-227]`, a word of `twistMid`, and the second operand of step 623
is the NEW `MT[0]` (second and third lines of R102). -/
def twistHigh (old : List Word) : List Word :=
  twistRun (old.drop 454) (old.drop 455 ++ (twistLow old).take 1) (twistMid old)

/-- The new block. The three runs are the steps of R100 in ascending order, each run reading words of the runs before it
where R101 says post-twist; it is NOT a map over a frozen copy (`spec/90_conflicts.md` C1). -/
def twistList (old : List Word) : List Word := twistLow old ++ twistMid old ++ twistHigh old

theorem length_twistList (old : List Word) (h : old.length = 624) : (twistList old).length = 624 := by
  simp [twistList, twistLow, twistMid, twistHigh, length_twistRun, h]

/-- `Twist` on `MT` (R100, R102). -/
def twist (mt : Vector Word 624) : Vector Word 624 :=
  ⟨(twistList mt.toList).toArray, by simp [length_twistList]⟩

/-- `Twist()` (R100): the whole of `MT`, then `CUR <- 0`; `DC` is not written. -/
def twistState (g : GeneratorState) : GeneratorState := { g with mt := twist g.mt, cur := 0 }

/-- Step `i` of the loop of R100, in place: three reads of the array as it stands, then the write of `MT[i]`. -/
def twistStepAt (i : Nat) (mt : Vector Word 624) : Vector Word 624 :=
  writeMT mt (wrapIndex i)
    (twistNext (readMT mt (wrapIndex i)) (readMT mt (wrapIndex (i + 1))) (readMT mt (wrapIndex (i + shiftM))))

/-- `for i in lo..lo+n-1`, ascending, one index at a time (R9). -/
def forUp {α : Type} (body : Nat → α → α) (lo : Nat) : Nat → α → α
  | 0, a => a
  | n + 1, a => forUp body (lo + 1) n (body lo a)

/-- The loop of R100 word for word, on the one array. The machine uses `twist`, which Lean's kernel evaluates quickly;
that the two are equal is an obligation (log entry 10). -/
def twistInPlace (mt : Vector Word 624) : Vector Word 624 := forUp twistStepAt 0 624 mt

/-- A group of `n` steps from `lo` evaluated together (R186): every step of the group reads the array as it stands when
the group starts, and all the writes follow all the reads. -/
def twistGroup (lo n : Nat) (mt : Vector Word 624) : Vector Word 624 :=
  forUp (fun i out => writeMT out (wrapIndex i) (readMT (twistStepAt i mt) (wrapIndex i))) lo n mt

/-- Groups of the given sizes in ascending order, from step `lo` on (R186). -/
def twistGroups (lo : Nat) : List Nat → Vector Word 624 → Vector Word 624
  | [], mt => mt
  | n :: ns, mt => twistGroups (lo + n) ns (twistGroup lo n mt)

/-! ### Tempering and the draw -/

/-- Stage 1 of R115 (the mask is the identity, R116). -/
def temperStage1 (y0 : Word) : Word := y0 ^^^ (lsr y0 temperU &&& temperD)

/-- Stage 2 of R115. -/
def temperStage2 (y1 : Word) : Word := y1 ^^^ (lsl32 y1 temperS &&& temperB)

/-- Stage 3 of R115. -/
def temperStage3 (y2 : Word) : Word := y2 ^^^ (lsl32 y2 temperT &&& temperC)

/-- Stage 4 of R115. -/
def temperStage4 (y3 : Word) : Word := y3 ^^^ lsr y3 temperL

/-- `Temper(y0)` (R115): the four stages in this order. -/
def temper (y0 : Word) : Word := temperStage4 (temperStage3 (temperStage2 (temperStage1 y0)))

/-- The extraction of R121 with `CUR = i`: read `MT[i]`, then `CUR <- CUR + 1`, temper, `DC <- add64(DC, 1)`. -/
def extractAt (i : Fin 624) (g : GeneratorState) : Word × GeneratorState :=
  (temper (readMT g.mt i), { g with cur := i.succ, dc := add64 g.dc 1#64 })

/-- `DrawStep()` (R121). When `CUR == 624` the twist comes first and leaves `CUR == 0`, the index that is then read. -/
def drawStep (g : GeneratorState) : Word × GeneratorState :=
  if h : g.cur.val = 624 then extractAt 0 (twistState g)
  else extractAt ⟨g.cur.val, by omega⟩ g

/-- The state change of a draw whose result is discarded (R130). -/
def drawNext (g : GeneratorState) : GeneratorState := (drawStep g).2

/-- `repeat n times: call DrawStep()` (R130). -/
def drawMany (n : Nat) (g : GeneratorState) : GeneratorState := Nat.iterate drawNext n g

end Sys2Proof.Machine
end

