-- ==== Sys2Proof/Machine/Advance.lean ====
section
/-!
DEFINITION. The command `ADVANCE` (`spec/43_advance.md` R130), defined by iteration as the spec asks (R134, U4), the
closed form of the state after it (R132), and the obligation of a skip-ahead engine (R134).
-/

namespace Sys2Proof.Machine

/-- `ADVANCE count` on a seeded core: `count` draw steps, their values discarded, data 0 (R130). -/
def advanceSeeded (count : DWord) (s : State) : State :=
  respond .ok 0#64 (s.setGen (drawMany count.toNat s.gen))

/-- `ADVANCE count` (R130): `Unseeded` if `SEEDED == 0`, for every count including 0 (R131). -/
def execAdvance (count : DWord) (s : State) : Host.Outcome State Fault Refusal :=
  .next (requireSeeded (advanceSeeded count) s)

/-- `twists` of R132 for a count of at least 1: over the integers, the sum is not cut to 64 bits. -/
def advanceTwists (cur count : Nat) : Nat := (cur + count - 1) / 624

/-- The closed form of R132 as an engine: `MT` twisted `twists` times and two register updates. -/
def closedFormEngine (count : DWord) (g : GeneratorState) : GeneratorState :=
  if count.toNat = 0 then g
  else
    { mt := Nat.iterate twist (advanceTwists g.cur.val count.toNat) g.mt
      cur := ⟨(g.cur.val + count.toNat - 1) % 624 + 1, by omega⟩
      dc := add64 g.dc count }

/-- R134: what an engine owes. "For every seeded start state and every `count`" it leaves exactly the state of `count`
sequential draws; a seeded start state has `1 <= CUR` (R24). -/
def SkipEngineMeets (engine : DWord → GeneratorState → GeneratorState) : Prop :=
  ∀ (count : DWord) (g : GeneratorState), 1 ≤ g.cur.val → engine count g = drawMany count.toNat g

end Sys2Proof.Machine
end

