-- ==== Sys2Proof/Machine/Draw.lean ====
section
/-!
DEFINITION. The command `DRAW` (`spec/42_draw_temper.md` R122).
-/

namespace Sys2Proof.Machine

/-- `DRAW` on a seeded core: one `DrawStep`, and its value zero-extended is the response's data (R122, R68). -/
def drawSeeded (s : State) : State :=
  respond .ok (zext64 (drawStep s.gen).1) (s.setGen (drawNext s.gen))

/-- `DRAW` (R122): `Unseeded` if `SEEDED == 0`. -/
def execDraw (s : State) : Host.Outcome State Fault Refusal := .next (requireSeeded drawSeeded s)

end Sys2Proof.Machine
end

