-- ==== Sys2Proof/Machine/Seed.lean ====
section
/-!
DEFINITION. The command `SEED` (`spec/40_seed.md` R91, R92).
-/

namespace Sys2Proof.Machine

/-- `SEED seed` (R91): legal whether or not the core is seeded (R92), reads nothing of the state before. -/
def execSeed (seed : Word) (s : State) : Host.Outcome State Fault Refusal :=
  .next (respond .ok 0#64 ((s.setGen (seedState seed)).setSeeded true))

end Sys2Proof.Machine
end

