-- ==== Sys2Proof/Machine/Total.lean ====
section
/-!
DEFINITION. The command `TOTAL` (`spec/44_total.md` R145).
-/

namespace Sys2Proof.Machine

/-- `TOTAL` on a seeded core: the data is the whole of `DC`; nothing is written (R145). -/
def totalSeeded (s : State) : State := respond .ok s.gen.dc s

/-- `TOTAL` (R145): `Unseeded` if `SEEDED == 0`. -/
def execTotal (s : State) : Host.Outcome State Fault Refusal := .next (requireSeeded totalSeeded s)

end Sys2Proof.Machine
end

