-- ==== Sys2Proof/Machine/Dispatch.lean ====
section
/-!
DEFINITION. What each command does: one arm per constructor of Instr (`spec/30_encoding.md` R63, column semantics).
-/

namespace Sys2Proof.Machine

def exec (i : Instr) (s : State) : Host.Outcome State Fault Refusal :=
  match i with
  | .seed n => Sys2Proof.Machine.execSeed n s
  | .draw => Sys2Proof.Machine.execDraw s
  | .advance n => Sys2Proof.Machine.execAdvance n s
  | .total => Sys2Proof.Machine.execTotal s

end Sys2Proof.Machine
end

