-- ==== Sys2Proof/Machine/Port.lean ====
section
/-!
DEFINITION. The command and response ports at one rising edge of `clk` (`spec/30_encoding.md` R60, R61;
`spec/70_reset_and_hazards.md` R180, R185, R189): reset, acceptance of a command, delivery of a response.
-/

namespace Sys2Proof.Machine

/-- `cmd_ready` in a cycle in which the host drives `rst` (R61, R180): no command is in progress and `rst == 0`.
In the cycle that delivers a response the command is still in progress (log entry 4). -/
def cmdReady (s : State) (rst : Bool) : Bool := !rst && s.rsp.isNone

/-- `rsp_valid` (R60). -/
def rspValid (s : State) : Bool := s.rsp.isSome

/-- `rsp_word` (R60); it means something only while `rsp_valid == 1`. -/
def rspWord (s : State) : Option PortWord := s.rsp.map responseWord

/-- A rising edge with `rst == 1` (R180): `SEEDED <- 0`, `rsp_valid <- 0`, and what the registers hold afterwards is
unspecified, so they take free values (R33, R182, log entry 2). A response on the port is lost (U11, log entry 7). -/
def resetEdge (s : State) : State :=
  (((s.setGen ⟨Config.freeMT s.resets, Config.freeCUR s.resets, Config.freeDC s.resets⟩).setSeeded false).setRsp
    none).setResets (s.resets + 1)

/-- The response `r` is delivered: it leaves the port and cannot be read again (R61). -/
def deliver (r : Response) (s : State) : State := (s.setRsp none).setDelivered (s.delivered ++ [r])

/-- A command word is accepted: decode comes first (R157), an illegal word raises `IllegalCommand` whatever `SEEDED` is
(R65, R154), a command is executed. Its response is on the port in the next cycle (log entry 3). -/
def accept (w : PortWord) (s : State) : Host.Outcome State Fault Refusal :=
  match decode w with
  | .ok i => exec i s
  | .error _ => .next (raiseException .illegalCommand s)

/-- One rising edge at which the host drives `c` (R60, R61). Reset overrides everything (R157, R180). While a response
is on the port no command is accepted, and the response stays until it is taken (R61, R185, R189). -/
def portEdge (c : HostCycle) (s : State) : Host.Outcome State Fault Refusal :=
  if c.rst then .next (resetEdge s)
  else
    match s.rsp with
    | some r => .next (if c.rspReady then deliver r s else s)
    | none => if c.cmdValid then accept c.cmdWord s else .next s

/-- The next rising edge. A host that drives nothing more holds `rst`, `cmd_valid` and `rsp_ready` at 0, and nothing
changes (R192: the core "stays so until the next command or reset"; log entry 5). -/
def nextEdge (s : State) : Host.Outcome State Fault Refusal :=
  match s.host with
  | [] => .next s
  | c :: rest => portEdge c (s.setHost rest)

/-- The host presents the command word `w`. -/
def presentCycle (w : PortWord) : HostCycle := ⟨false, true, w, false⟩

/-- The host is ready to take a response and presents nothing. -/
def takeCycle : HostCycle := ⟨false, false, 0#72, true⟩

/-- The host asserts `rst`. -/
def resetCycle : HostCycle := ⟨true, false, 0#72, false⟩

/-- A host that issues the words of a command sequence and takes each response: a run (R192). -/
def hostProgram (ws : List PortWord) : List HostCycle := ws.flatMap fun w => [presentCycle w, takeCycle]

/-- The atomic step of R61, `State -> CommandWord -> State x ResponseWord`, on the four items of R20: what one accepted
word does to `MT`, `CUR`, `DC`, `SEEDED`, and its response. -/
def transaction (w : PortWord) (g : GeneratorState) (seeded : Bool) : GeneratorState × Bool × Response :=
  match decode w with
  | .error _ => (g, seeded, ⟨.errIllegal, 0#64⟩)
  | .ok (.seed n) => (seedState n, true, ⟨.ok, 0#64⟩)
  | .ok .draw =>
    if seeded then (drawNext g, true, ⟨.ok, zext64 (drawStep g).1⟩) else (g, false, ⟨.errUnseeded, 0#64⟩)
  | .ok (.advance n) =>
    if seeded then (drawMany n.toNat g, true, ⟨.ok, 0#64⟩) else (g, false, ⟨.errUnseeded, 0#64⟩)
  | .ok .total =>
    if seeded then (g, true, ⟨.ok, g.dc⟩) else (g, false, ⟨.errUnseeded, 0#64⟩)

/-- A sequence of atomic steps, and the responses in order. -/
def transactions : List PortWord → GeneratorState → Bool → GeneratorState × Bool × List Response
  | [], g, b => (g, b, [])
  | w :: ws, g, b =>
    let t := transaction w g b
    let u := transactions ws t.1 t.2.1
    (u.1, u.2.1, t.2.2 :: u.2.2)

end Sys2Proof.Machine
end

