-- ==== Sys2Proof/Machine/Step.lean ====
section
/-!
DEFINITION. One step of the core: one rising edge of `clk` (log entry 3). And where an instruction of the opcode table
stands for the step to run it.
-/

namespace Sys2Proof.Machine

/-- One step. -/
def step (s : State) : Host.Outcome State Fault Refusal := nextEdge s

/-- The core fetches no instruction (`spec/10_state.md` R29): the host presents it. So the word is what the host drives
at the next edge, with `cmd_valid == 1` and `rst == 0`, and the port is free, so that the edge accepts it (log entry 5). -/
def State.withFetchWord (s : State) (nbits w : Nat) : State :=
  { s with rsp := none, host := presentCycle (tableWord nbits w) :: s.host }

end Sys2Proof.Machine
end

