-- ==== Sys2Proof/Machine/Assembler.lean ====
section
/-!
DEFINITION. The text form of a command sequence (`spec/30_encoding.md` R70, R71). It is not a hardware property (D20).
White space, the case of hexadecimal digits and leading zeros are the model's reading (log entry 12).
-/

namespace Sys2Proof.Machine

/-- Why a line is refused. -/
inductive AsmError where
  /-- It is no line of the grammar of R70. -/
  | notALine
  /-- Its number does not fit: "an assembler refuses a number out of range (it does not truncate)". -/
  | outOfRange
  deriving DecidableEq, Repr

/-- The value of a decimal digit. -/
def decDigit (c : Char) : Option Nat :=
  if 48 ≤ c.toNat ∧ c.toNat ≤ 57 then some (c.toNat - 48) else none

/-- The value of a hexadecimal digit, either case. -/
def hexDigit (c : Char) : Option Nat :=
  if 65 ≤ c.toNat ∧ c.toNat ≤ 70 then some (c.toNat - 55)
  else if 97 ≤ c.toNat ∧ c.toNat ≤ 102 then some (c.toNat - 87)
  else decDigit c

/-- The number written by the digits after those that gave `acc`. -/
def digitsFrom (base : Nat) (digit : Char → Option Nat) : Nat → List Char → Option Nat
  | acc, [] => some acc
  | acc, c :: cs => (digit c).bind fun d => digitsFrom base digit (acc * base + d) cs

/-- `number` of R70: decimal digits, or `0x` and hexadecimal digits; at least one digit. -/
def parseNumber : List Char → Option Nat
  | '0' :: 'x' :: c :: cs => digitsFrom 16 hexDigit 0 (c :: cs)
  | c :: cs => digitsFrom 10 decDigit 0 (c :: cs)
  | [] => none

/-- The raw word of `.word`: `0x` and exactly 18 hexadecimal digits (R70). -/
def parseRaw : List Char → Option Nat
  | '0' :: 'x' :: cs => if cs.length = 18 then digitsFrom 16 hexDigit 0 cs else none
  | _ => none

/-- The line without its comment: everything before the first `;`. -/
def dropComment : List Char → List Char
  | [] => []
  | c :: cs => if c = ';' then [] else c :: dropComment cs

/-- Words separated by spaces and tabs; `cur` is the word being read. -/
def tokensFrom (cur : List Char) : List Char → List (List Char)
  | [] => if cur = [] then [] else [cur]
  | c :: cs =>
    if c = ' ' ∨ c = '\t' then
      if cur = [] then tokensFrom [] cs else cur :: tokensFrom [] cs
    else tokensFrom (cur ++ [c]) cs

/-- A line of R70: `none` if it holds no command. -/
def parseLine (line : List Char) : Except AsmError (Option AsmLine) :=
  match tokensFrom [] (dropComment line) with
  | [] => .ok none
  | [['S', 'E', 'E', 'D'], n] => ((parseNumber n).elim (.error .notALine) fun k => .ok (some (.seed k)))
  | [['D', 'R', 'A', 'W']] => .ok (some .draw)
  | [['A', 'D', 'V', 'A', 'N', 'C', 'E'], n] =>
    ((parseNumber n).elim (.error .notALine) fun k => .ok (some (.advance k)))
  | [['T', 'O', 'T', 'A', 'L']] => .ok (some .total)
  | [['.', 'w', 'o', 'r', 'd'], n] => ((parseRaw n).elim (.error .notALine) fun k => .ok (some (.raw k)))
  | _ => .error .notALine

/-! The grammar of R70 as a relation, written without the functions above: what `parseLine` is to read. -/

/-- Only spaces and tabs (log entry 12). -/
def IsBlank (cs : List Char) : Prop := ∀ c ∈ cs, c = ' ' ∨ c = '\t'

/-- The words `ws`, each ended by a space, a tab or the end of the text, and nothing else but blanks (log entry 12). -/
def SpacedWords : List (List Char) → List Char → Prop
  | [], cs => IsBlank cs
  | w :: ws, cs => ∃ lead rest, cs = lead ++ w ++ rest ∧ IsBlank lead ∧
      (rest = [] ∨ ∃ c more, rest = c :: more ∧ IsBlank [c]) ∧ SpacedWords ws rest

/-- At least one digit of the base, of either case, most significant first, with the value `n` (log entry 12). -/
def DigitsText (base : Nat) (cs : List Char) (n : Nat) : Prop :=
  cs ≠ [] ∧ ∃ ds : List Nat, (∀ d ∈ ds, d < base) ∧ cs.map Char.toLower = ds.map Nat.digitChar ∧
    n = Nat.ofDigits base ds.reverse

/-- `number` of R70. -/
def NumberText (cs : List Char) (n : Nat) : Prop :=
  DigitsText 10 cs n ∨ ∃ hex, cs = '0' :: 'x' :: hex ∧ DigitsText 16 hex n

/-- The raw word of `.word` (R70). -/
def RawText (cs : List Char) (n : Nat) : Prop := ∃ hex, cs = '0' :: 'x' :: hex ∧ hex.length = 18 ∧ DigitsText 16 hex n

/-- The words that write a command (R70); none for a line without a command. -/
def CommandText : Option AsmLine → List (List Char) → Prop
  | none, ws => ws = []
  | some (.seed n), ws => ∃ t, ws = [['S', 'E', 'E', 'D'], t] ∧ NumberText t n
  | some .draw, ws => ws = [['D', 'R', 'A', 'W']]
  | some (.advance n), ws => ∃ t, ws = [['A', 'D', 'V', 'A', 'N', 'C', 'E'], t] ∧ NumberText t n
  | some .total, ws => ws = [['T', 'O', 'T', 'A', 'L']]
  | some (.raw n), ws => ∃ t, ws = [['.', 'w', 'o', 'r', 'd'], t] ∧ RawText t n

/-- `line` of R70: a command or none, then a comment or none. -/
def LineText (line : List Char) (a : Option AsmLine) : Prop :=
  ∃ body tail ws, line = body ++ tail ∧ (tail = [] ∨ ∃ comment, tail = ';' :: comment) ∧ SpacedWords ws body ∧
    CommandText a ws

/-- The one command word of a line (R70), refused if a number is out of range. -/
def assemble (a : AsmLine) : Except AsmError PortWord :=
  if a.wellFormed then
    match a with
    | .seed n => .ok (encode (.seed (BitVec.ofNat 32 n)))
    | .draw => .ok (encode .draw)
    | .advance n => .ok (encode (.advance (BitVec.ofNat 64 n)))
    | .total => .ok (encode .total)
    | .raw n => .ok (BitVec.ofNat 72 n)
  else .error .outOfRange

/-- The command words of a text, top to bottom (R70); the first bad line refuses the whole. -/
def assembleLines : List (List Char) → Except AsmError (List PortWord)
  | [] => .ok []
  | line :: lines =>
    match parseLine line with
    | .error e => .error e
    | .ok none => assembleLines lines
    | .ok (some a) =>
      match assemble a with
      | .error e => .error e
      | .ok w =>
        match assembleLines lines with
        | .error e => .error e
        | .ok ws => .ok (w :: ws)

end Sys2Proof.Machine
end

