-- ==== Sys2Proof/Safety.lean ====
section
/-!
DEFINITION. What holds of the core in every state a run reaches, and when two states look the same to the host: the
terms in which statements about the whole machine are made.
-/

namespace Sys2Proof.Machine

/-- R24 at a command boundary: with `SEEDED == 1`, `1 <= CUR <= 624` (`CUR == 0` exists only inside a draw). -/
def CursorInv (s : State) : Prop := s.seeded = true → 1 ≤ s.gen.cur.val ∧ s.gen.cur.val ≤ 624

/-- With `SEEDED == 1` the generator registers are those of some `SEED` followed by some number of draws (R27, R123):
no other `MT`, `CUR`, `DC` can be there. -/
def OnSequence (s : State) : Prop :=
  s.seeded = true → ∃ (seed : Word) (k : Nat), s.gen = drawMany k (seedState seed)

/-- The host cannot tell two states apart: the same port, inputs, record and `SEEDED`, and the same registers IF the
core is seeded. Registers of an unseeded core may differ in any way (R33: no rule reads them). -/
def LooksSame (s t : State) : Prop :=
  s.seeded = t.seeded ∧ s.rsp = t.rsp ∧ s.host = t.host ∧ s.delivered = t.delivered ∧
    (s.seeded = true → s.gen = t.gen)

/-- The three conditions of R25 at a command boundary of a seeded core. -/
inductive Phase where
  | fresh
  | active
  | exhausted
  deriving DecidableEq, Repr

/-- The condition of R25 after `k` draws since the last `SEED`: it depends on `CUR` and on whether there was a draw. -/
def phaseOf (g : GeneratorState) (k : Nat) : Phase :=
  if g.cur.val = 624 then (if k = 0 then .fresh else .exhausted) else .active

/-- The block after `n` twists of `SeedWords(seed)` (R123). -/
def blockAfter (seed : Word) (n : Nat) : Vector Word 624 := Nat.iterate twist n (seedWords seed)

/-- The value of draw number `k + 1` after `SEED seed` (R123 counts from 1). -/
def drawValue (seed : Word) (k : Nat) : Word := (drawStep (drawMany k (seedState seed))).1

/-- XOR of two blocks, word by word (R102). -/
def xorBlocks (a b : Vector Word 624) : Vector Word 624 := Vector.zipWith (fun x y => x ^^^ y) a b

/-- `n` `DRAW` commands one after the other, each a whole command (R133). -/
def drawCommands : Nat → State → Host.Outcome State Fault Refusal
  | 0, s => .next s
  | n + 1, s =>
    match exec .draw s with
    | .next t => drawCommands n t
    | .fault r => .fault r
    | .refused r => .refused r

/-- How many logical draws a command word makes on a seeded core (R27): one for `DRAW`, `count` for `ADVANCE`. -/
def logicalDraws (w : PortWord) : Nat :=
  match decode w with
  | .ok (.seed _) => 0
  | .ok .draw => 1
  | .ok (.advance n) => n.toNat
  | .ok .total => 0
  | .error _ => 0

/-- The word is a legal `SEED`. -/
def isSeedWord (w : PortWord) : Bool :=
  match decode w with
  | .ok (.seed _) => true
  | .ok .draw => false
  | .ok (.advance _) => false
  | .ok .total => false
  | .error _ => false

end Sys2Proof.Machine
end

