-- ==== Sys2Proof/Certificates/Slice0/Obligations.lean ====
section
/-!
DEFINITION. The statements for the provers. Each formalises a numbered rule of `spec/`, or rests on sections of it, as
`OBLIGATIONS.json` says. An equation `exec i s = .next { s with … }` gives the result, that the command completes, and
its frame: every field not named is unchanged.
-/

open Sys2Proof Sys2Proof.Machine

/-! ### Arithmetic (`00_scope.md`) -/

/-- R10: what each operator computes, in terms of the integers its words stand for. -/
def Obligations.OperatorsComputeAsDefined : Prop :=
  (∀ (a b : Word) (k : Nat), k ≤ 31 →
    (∀ j : Nat, (a ^^^ b).getLsbD j = (a.getLsbD j != b.getLsbD j)) ∧
    (∀ j : Nat, (a &&& b).getLsbD j = (a.getLsbD j && b.getLsbD j)) ∧
    (∀ j : Nat, (a ||| b).getLsbD j = (a.getLsbD j || b.getLsbD j)) ∧
    (lsr a k).toNat = a.toNat / 2 ^ k ∧
    (lsl32 a k).toNat = a.toNat * 2 ^ k % 2 ^ 32 ∧
    (mul32 a b).toNat = a.toNat * b.toNat % 2 ^ 32 ∧
    (add32 a b).toNat = (a.toNat + b.toNat) % 2 ^ 32) ∧
  (∀ a b : DWord, (add64 a b).toNat = (a.toNat + b.toNat) % 2 ^ 64) ∧
  (∀ x : Nat, (wrapIndex x).val = x % 624)

/-! ### Encoding (`30_encoding.md`) -/

/-- R62, R64: encoding a command and decoding the word gives the command back, at every operand value. -/
def Obligations.DecodeOfEncodeIsIdentity : Prop :=
  ∀ i : Instr, decode (encode i) = .ok i

/-- R63: each legal word is the encoding of the command it decodes to, so no two words are one command. -/
def Obligations.EncodeOfDecodeIsIdentity : Prop :=
  ∀ (w : PortWord) (i : Instr), decode w = .ok i → encode i = w

/-- R63: a word is the command of a row exactly when its mask and match say so, the rows are disjoint, words that match
no row are illegal, and the operand is the field the table names. -/
def Obligations.OpcodeMapSelectsCommands : Prop :=
  ∀ w : PortWord,
    (opcodeRows.filter (fun r => r.hits w)).map OpcodeRow.mnemonic =
      (match decode w with
       | .ok i => [mnemonicOf i]
       | .error _ => []) ∧
    (∀ n : Word, decode w = .ok (.seed n) → n.toNat = w.toNat % 2 ^ 32) ∧
    (∀ n : DWord, decode w = .ok (.advance n) → n.toNat = w.toNat % 2 ^ 64)

/-- R65: the four kinds of illegal word, as arithmetic on the word's number, and what an accepted one does. -/
def Obligations.IllegalWordsAreExactlyThese : Prop :=
  ∀ w : PortWord,
    ((∃ e, decode w = .error e) ↔
      (w.toNat / 2 ^ 64 = 0 ∨ 5 ≤ w.toNat / 2 ^ 64) ∨
      (w.toNat / 2 ^ 64 = 1 ∧ w.toNat % 2 ^ 64 / 2 ^ 32 ≠ 0) ∨
      (w.toNat / 2 ^ 64 = 2 ∧ w.toNat % 2 ^ 64 ≠ 0) ∨
      (w.toNat / 2 ^ 64 = 4 ∧ w.toNat % 2 ^ 64 ≠ 0)) ∧
    (∀ (e : DecodeError) (s : State), decode w = .error e →
      accept w s = .next { s with rsp := some ⟨.errIllegal, 0#64⟩ })

/-- R72: words written out from the encoding tables decode to the commands they stand for (`95_test_vectors.md` 9). -/
def Obligations.WrittenWordsDecode : Prop :=
  decode 0x010000000000001571#72 = .ok (.seed 5489#32) ∧
  decode 0x0100000000FFFFFFFF#72 = .ok (.seed 0xFFFFFFFF#32) ∧
  decode 0x020000000000000000#72 = .ok .draw ∧
  decode 0x03FFFFFFFFFFFFFFFF#72 = .ok (.advance 18446744073709551615#64) ∧
  decode 0x040000000000000000#72 = .ok .total ∧
  decode 0x010000000100000000#72 = .error .seedReservedBits ∧
  decode 0x020000000000000001#72 = .error .drawReservedBits ∧
  decode 0x048000000000000000#72 = .error .totalReservedBits ∧
  decode 0x000000000000000000#72 = .error (.unassignedOpcode 0x00#8)

/-- R66, R67: the response word has the status code in bits 71:64 and the data in bits 63:0. -/
def Obligations.ResponseWordHasItsFields : Prop :=
  (∀ r : Response,
    (responseWord r).toNat / 2 ^ 64 = (statusCode r.status).toNat ∧
    (responseWord r).toNat % 2 ^ 64 = r.data.toNat) ∧
  statusCode .ok = 0x00#8 ∧ statusCode .errIllegal = 0x01#8 ∧ statusCode .errUnseeded = 0x02#8

/-- R68: the data of every response, by command. The high half of a `DRAW` response is zero. -/
def Obligations.ResponseDataByCommand : Prop :=
  ∀ s : State,
    (∀ n : Word, ∃ t, exec (.seed n) s = .next t ∧ t.rsp = some ⟨.ok, 0#64⟩) ∧
    (s.seeded = true →
      (∃ t d, exec .draw s = .next t ∧ t.rsp = some ⟨.ok, d⟩ ∧
        d.toNat = (drawStep s.gen).1.toNat ∧ d.extractLsb' 32 32 = 0#32) ∧
      (∀ n : DWord, ∃ t, exec (.advance n) s = .next t ∧ t.rsp = some ⟨.ok, 0#64⟩) ∧
      (∃ t, exec .total s = .next t ∧ t.rsp = some ⟨.ok, s.gen.dc⟩)) ∧
    (∀ e : CoreException, (raiseException e s).rsp = some ⟨exceptionStatus e, 0#64⟩)

/-- R70: a line, once parsed, assembles to one word, that of its command, or the raw word; a number out of range is
refused, not cut. How the text of a line is parsed is `ParseLineReadsTheGrammar`. -/
def Obligations.AssemblerEmitsTheCommand : Prop :=
  (∀ n : Nat, n < 2 ^ 32 → ∃ w, assemble (.seed n) = .ok w ∧ w.toNat = 2 ^ 64 + n) ∧
  (∀ n : Nat, n < 2 ^ 64 → ∃ w, assemble (.advance n) = .ok w ∧ w.toNat = 3 * 2 ^ 64 + n) ∧
  (∃ w, assemble .draw = .ok w ∧ decode w = .ok .draw) ∧
  (∃ w, assemble .total = .ok w ∧ decode w = .ok .total) ∧
  (∀ n : Nat, n < 2 ^ 72 → ∃ w, assemble (.raw n) = .ok w ∧ w.toNat = n) ∧
  (∀ n : Nat, 2 ^ 32 ≤ n → assemble (.seed n) = .error .outOfRange) ∧
  (∀ n : Nat, 2 ^ 64 ≤ n → assemble (.advance n) = .error .outOfRange) ∧
  (∀ n : Nat, 2 ^ 72 ≤ n → assemble (.raw n) = .error .outOfRange)

/-- R70: a line of text is read as a command, or as none, exactly when the grammar says so: comments, decimal and
hexadecimal numbers, `.word`, and nothing beyond them. White space, the case of digits and leading zeros are the model's
choice (log entry 12). -/
def Obligations.ParseLineReadsTheGrammar : Prop :=
  ∀ (line : List Char) (a : Option AsmLine), parseLine line = .ok a ↔ LineText line a

/-- R70: a text assembles exactly when each of its lines does, to one word per command, top to bottom; a bad line or a
number out of range refuses the whole text. -/
def Obligations.TextAssemblesLineByLine : Prop :=
  ∀ (lines : List (List Char)) (ws : List PortWord), assembleLines lines = .ok ws ↔
    ∃ cmds : List (Option AsmLine), List.Forall₂ (fun line a => parseLine line = .ok a) lines cmds ∧
      List.Forall₂ (fun a w => assemble a = .ok w) (cmds.filterMap id) ws

/-! ### Seeding (`40_seed.md`) -/

/-- R90: `SeedWords(s)` is the sequence defined by the recurrence. -/
def Obligations.SeedWordsFollowRecurrence : Prop :=
  ∀ s : Word,
    readMT (seedWords s) 0 = s ∧
    ∀ i : Nat, 1 ≤ i → i ≤ 623 →
      readMT (seedWords s) (wrapIndex i) =
        add32 (mul32 0x6C078965#32
          (readMT (seedWords s) (wrapIndex (i - 1)) ^^^ lsr (readMT (seedWords s) (wrapIndex (i - 1))) 30))
          (BitVec.ofNat 32 i)

/-- R91: what `SEED` does, in every state, seeded or not; its word. -/
def Obligations.SeedReplacesTheGenerator : Prop :=
  ∀ (seed : Word) (s : State),
    decode (commandWord 0x01#8 (seed.zeroExtend 64)) = .ok (.seed seed) ∧
    exec (.seed seed) s =
      .next { s with gen := ⟨seedWords seed, 624, 0#64⟩, seeded := true, rsp := some ⟨.ok, 0#64⟩ }

/-- R93: the generator after `SEED` is a function of the seed alone, and so are all draws from it. -/
def Obligations.SameSeedSameDraws : Prop :=
  ∀ (seed : Word) (s t : State) (n : Nat), ∃ a b u v,
    exec (.seed seed) s = .next a ∧ exec (.seed seed) t = .next b ∧
    drawCommands n a = .next u ∧ drawCommands n b = .next v ∧ u.gen = v.gen ∧ u.rsp = v.rsp

/-! ### The twist (`41_twist.md`) -/

/-- R100: `Twist` is the loop in place, ascending, each read returning what the array holds at that moment; then
`CUR <- 0`, and `DC` keeps its value. -/
def Obligations.TwistIsTheLoopInPlace : Prop :=
  (∀ (i : Nat) (mt : Vector Word 624),
    let y := (readMT mt (wrapIndex i) &&& 0x80000000#32) ||| (readMT mt (wrapIndex (i + 1)) &&& 0x7FFFFFFF#32)
    twistStepAt i mt =
      writeMT mt (wrapIndex i) (readMT mt (wrapIndex (i + 397)) ^^^ lsr y 1 ^^^
        (if y.getLsbD 0 then 0x9908B0DF#32 else 0#32))) ∧
  ∀ g : GeneratorState, twistState g = ⟨forUp twistStepAt 0 624 g.mt, 0, g.dc⟩

/-- R102: the three lines that give the new block from the old, and that the twist is linear over XOR. -/
def Obligations.TwistAsFunctionOfTheOldBlock : Prop :=
  (∀ old : Vector Word 624,
    (∀ i : Nat, i ≤ 226 →
      readMT (twist old) (wrapIndex i) =
        readMT old (wrapIndex (i + 397)) ^^^ twistG (readMT old (wrapIndex i)) (readMT old (wrapIndex (i + 1)))) ∧
    (∀ i : Nat, 227 ≤ i → i ≤ 622 →
      readMT (twist old) (wrapIndex i) =
        readMT (twist old) (wrapIndex (i - 227)) ^^^
          twistG (readMT old (wrapIndex i)) (readMT old (wrapIndex (i + 1)))) ∧
    readMT (twist old) 623 =
      readMT (twist old) 396 ^^^ twistG (readMT old 623) (readMT (twist old) 0)) ∧
  (∀ a b : Word, twistG a b =
    lsr ((a &&& 0x80000000#32) ||| (b &&& 0x7FFFFFFF#32)) 1 ^^^
      (if ((a &&& 0x80000000#32) ||| (b &&& 0x7FFFFFFF#32)).getLsbD 0 then 0x9908B0DF#32 else 0#32)) ∧
  (∀ a b : Vector Word 624, twist (xorBlocks a b) = xorBlocks (twist a) (twist b)) ∧
  twist (Vector.replicate 624 0#32) = Vector.replicate 624 0#32

/-- R186: any grouping of the 624 steps into consecutive groups of at most 227, taken in ascending order, every group
reading the array as it stands when the group starts, computes the twist. -/
def Obligations.TwistGroupsOfAtMost227Agree : Prop :=
  ∀ (sizes : List Nat) (mt : Vector Word 624),
    sizes.sum = 624 → (∀ n ∈ sizes, n ≤ 227) → twistGroups 0 sizes mt = twistInPlace mt

/-- R103: after `SEED` and `k` draws, the next draw twists exactly when `k mod 624 == 0`; how many twists there were;
and `SEED`, `TOTAL` and `ADVANCE 0` do not twist. -/
def Obligations.TwistHappensOncePerBlock : Prop :=
  (∀ (seed : Word) (k : Nat),
    ((drawMany k (seedState seed)).cur.val = 624 ↔ k % 624 = 0) ∧
    (drawMany k (seedState seed)).mt = blockAfter seed (if k = 0 then 0 else (k - 1) / 624 + 1)) ∧
  (∀ g : GeneratorState,
    (g.cur.val = 624 → (drawNext g).mt = twist g.mt) ∧ (g.cur.val ≠ 624 → (drawNext g).mt = g.mt)) ∧
  (∀ s : State,
    (∀ seed : Word, ∃ t, exec (.seed seed) s = .next t ∧ t.gen.mt = seedWords seed) ∧
    (∃ t, exec .total s = .next t ∧ t.gen.mt = s.gen.mt) ∧
    (∃ t, exec (.advance 0#64) s = .next t ∧ t.gen.mt = s.gen.mt))

/-! ### Tempering and the draw (`42_draw_temper.md`) -/

/-- R115: the four stages in this order. -/
def Obligations.TemperIsFourStages : Prop :=
  ∀ y0 : Word,
    let y1 := y0 ^^^ (lsr y0 11 &&& 0xFFFFFFFF#32)
    let y2 := y1 ^^^ (lsl32 y1 7 &&& 0x9D2C5680#32)
    let y3 := y2 ^^^ (lsl32 y2 15 &&& 0xEFC60000#32)
    temper y0 = y3 ^^^ lsr y3 18

/-- R117 (a) to (e): `Temper` is linear over XOR, and its values at the words the rule names. -/
def Obligations.TemperIsLinear : Prop :=
  (∀ a b : Word, temper (a ^^^ b) = temper a ^^^ temper b) ∧
  temper 0x00000000#32 = 0x00000000#32 ∧
  temper 0x00000001#32 = 0x00400091#32 ∧
  temper 0x80000000#32 = 0x88102204#32 ∧
  temper 0xFFFFFFFF#32 = 0x6FE01BF8#32

/-- R121: the draw step, with the twist first when the block is used up. -/
def Obligations.DrawStepExtractsAndCounts : Prop :=
  ∀ g : GeneratorState,
    (g.cur.val = 624 →
      drawStep g = (temper (readMT (twist g.mt) 0), ⟨twist g.mt, 1, add64 g.dc 1#64⟩)) ∧
    (∀ i : Fin 624, g.cur.val = i.val →
      drawStep g = (temper (readMT g.mt i), ⟨g.mt, i.succ, add64 g.dc 1#64⟩))

/-- R122: what `DRAW` does on a seeded core, and its error on an unseeded one; its word. -/
def Obligations.DrawReturnsTheTemperedWord : Prop :=
  decode (commandWord 0x02#8 0#64) = .ok .draw ∧
  ∀ s : State,
    (s.seeded = true →
      exec .draw s =
        .next { s with gen := (drawStep s.gen).2, rsp := some ⟨.ok, (drawStep s.gen).1.zeroExtend 64⟩ }) ∧
    (s.seeded = false → exec .draw s = .next { s with rsp := some ⟨.errUnseeded, 0#64⟩ })

/-- R123: draw number `k + 1` after `SEED` returns `Temper(B[k mod 624])`, `B` the block after `floor(k/624) + 1`
twists of `SeedWords(seed)`. -/
def Obligations.DrawNumberReadsItsBlock : Prop :=
  ∀ (s : State) (seed : Word) (k : Nat), ∃ t u v,
    exec (.seed seed) s = .next t ∧ drawCommands k t = .next u ∧ exec .draw u = .next v ∧
    v.rsp = some ⟨.ok, zext64 (temper (readMT (blockAfter seed (k / 624 + 1)) (wrapIndex k)))⟩

/-! ### Skip-ahead (`43_advance.md`) -/

/-- R130: `ADVANCE count` is `count` draw steps with their results discarded, for every count; its word. -/
def Obligations.AdvanceRepeatsTheDrawStep : Prop :=
  ∀ (count : DWord) (s : State),
    decode (commandWord 0x03#8 count) = .ok (.advance count) ∧
    (s.seeded = true →
      exec (.advance count) s =
        .next { s with
          gen := Nat.iterate (fun g => (drawStep g).2) count.toNat s.gen, rsp := some ⟨.ok, 0#64⟩ }) ∧
    (s.seeded = false → exec (.advance count) s = .next { s with rsp := some ⟨.errUnseeded, 0#64⟩ })

/-- R131: `ADVANCE 0` changes no state on a seeded core, and is refused on an unseeded one. -/
def Obligations.AdvanceZeroIsNoOp : Prop :=
  ∀ s : State,
    (s.seeded = true → exec (.advance 0#64) s = .next { s with rsp := some ⟨.ok, 0#64⟩ }) ∧
    (s.seeded = false → exec (.advance 0#64) s = .next { s with rsp := some ⟨.errUnseeded, 0#64⟩ })

/-- R132: the registers after `ADVANCE count` in closed form, the same as after `count` `DRAW` commands. -/
def Obligations.AdvanceClosedForm : Prop :=
  ∀ (count : DWord) (s : State), s.seeded = true → 1 ≤ s.gen.cur.val → ∃ t u,
    exec (.advance count) s = .next t ∧ drawCommands count.toNat s = .next u ∧ u.gen = t.gen ∧
    (count.toNat = 0 → t.gen = s.gen) ∧
    (1 ≤ count.toNat →
      let twists := (s.gen.cur.val + count.toNat - 1) / 624
      t.gen.cur.val = s.gen.cur.val + count.toNat - 624 * twists ∧
      1 ≤ t.gen.cur.val ∧ t.gen.cur.val ≤ 624 ∧
      t.gen.dc.toNat = (s.gen.dc.toNat + count.toNat) % 2 ^ 64 ∧
      t.gen.mt = Nat.iterate twist twists s.gen.mt)

/-- R133: `ADVANCE count` then `DRAW` and `TOTAL` is `count` `DRAW`s then the same, in response and in state; and
advancing composes. -/
def Obligations.AdvanceEqualsRepeatedDraws : Prop :=
  (∀ (count : DWord) (s : State), s.seeded = true → ∃ t u,
    exec (.advance count) s = .next t ∧ drawCommands count.toNat s = .next u ∧
    t.gen = u.gen ∧ t.seeded = u.seeded ∧ exec .draw t = exec .draw u ∧ exec .total t = exec .total u) ∧
  (∀ (a b : DWord) (s : State), s.seeded = true → a.toNat + b.toNat < 2 ^ 64 → ∃ t u,
    exec (.advance a) s = .next t ∧ exec (.advance b) t = .next u ∧ exec (.advance (a + b)) s = .next u)

/-- R134: the closed form meets the obligation of a skip-ahead engine, for every count and every state between
commands of a seeded core. -/
def Obligations.ClosedFormIsASkipEngine : Prop := SkipEngineMeets closedFormEngine

/-! ### The counter (`44_total.md`, `10_state.md`) -/

/-- R145: `TOTAL` returns the whole of `DC` and writes nothing; its error on an unseeded core; its word. -/
def Obligations.TotalReturnsTheCounter : Prop :=
  decode (commandWord 0x04#8 0#64) = .ok .total ∧
  ∀ s : State,
    (s.seeded = true → exec .total s = .next { s with rsp := some ⟨.ok, s.gen.dc⟩ }) ∧
    (s.seeded = false → exec .total s = .next { s with rsp := some ⟨.errUnseeded, 0#64⟩ })

/-- R146: a second `TOTAL` returns the same, and inserting a `TOTAL` anywhere in a command sequence issued to a seeded
core changes no other response and no state. -/
def Obligations.InsertingTotalChangesNothing : Prop :=
  (∀ s : State, s.seeded = true → ∃ t, exec .total s = .next t ∧ exec .total t = .next t) ∧
  ∀ (before after : List PortWord) (g : GeneratorState), ∃ r : Response,
    (transactions (before ++ encode .total :: after) g true).1 = (transactions (before ++ after) g true).1 ∧
    (transactions (before ++ encode .total :: after) g true).2.1 = (transactions (before ++ after) g true).2.1 ∧
    (transactions (before ++ encode .total :: after) g true).2.2 =
      (transactions (before ++ after) g true).2.2.take before.length ++
        r :: (transactions (before ++ after) g true).2.2.drop before.length

/-- R147: two `TOTAL` responses with no `SEED` between them differ by the logical draws between them, modulo 2^64, and
exactly while the counter has not wrapped; a `SEED` restarts the count. -/
def Obligations.TotalCountsLogicalDraws : Prop :=
  (∀ (ws : List PortWord) (g : GeneratorState), (∀ w ∈ ws, isSeedWord w = false) →
    ∃ (a b : DWord) (rs : List Response),
      (transactions (encode .total :: ws ++ [encode .total]) g true).2.2 = ⟨.ok, a⟩ :: rs ++ [⟨.ok, b⟩] ∧
      b.toNat = (a.toNat + (ws.map logicalDraws).sum) % 2 ^ 64 ∧
      (a.toNat + (ws.map logicalDraws).sum < 2 ^ 64 →
        b.toNat = a.toNat + (ws.map logicalDraws).sum ∧ a.toNat ≤ b.toNat)) ∧
  (∀ (ws : List PortWord) (g : GeneratorState) (seeded : Bool) (seed : Word),
    (∀ w ∈ ws, isSeedWord w = false) → ∃ (b : DWord) (rs : List Response),
      (transactions (encode (.seed seed) :: ws ++ [encode .total]) g seeded).2.2 = rs ++ [⟨.ok, b⟩] ∧
      b.toNat = (ws.map logicalDraws).sum % 2 ^ 64)

/-! ### Errors (`60_exceptions.md`) -/

/-- R155: `Unseeded` is the response of `DRAW`, `TOTAL` and every `ADVANCE` on an unseeded core; `SEED` never raises it,
and a seeded core never does. -/
def Obligations.UnseededIsRaisedExactlyThen : Prop :=
  ∀ (i : Instr) (s : State), ∃ t r, exec i s = .next t ∧ t.rsp = some r ∧
    (r.status = .errUnseeded ↔ s.seeded = false ∧ ∀ n : Word, i ≠ .seed n)

/-- R156, R157: an accepted illegal word leaves everything as it was but the response `ERR_ILLEGAL` with data 0,
whatever `SEEDED` is and whatever the host drives afterwards; a legal word other than `SEED` on an unseeded core likewise
leaves only `ERR_UNSEEDED`. When the host takes the response the core is exactly as before the word, ready, with nothing
sticky. -/
def Obligations.ErrorsChangeOnlyTheResponse : Prop :=
  ∀ (s : State) (c : HostCycle) (rest : List HostCycle) (status : Status),
    s.host = c :: rest → c.rst = false → c.cmdValid = true → s.rsp = none →
    (((∃ e, decode c.cmdWord = .error e) ∧ status = .errIllegal) ∨
      (∃ i, decode c.cmdWord = .ok i ∧ s.seeded = false ∧ (∀ n : Word, i ≠ .seed n) ∧ status = .errUnseeded)) →
    ∃ t, step s = .next t ∧ t = { s with host := rest, rsp := some ⟨status, 0#64⟩ } ∧
      ∀ (d : HostCycle) (later : List HostCycle), rest = d :: later →
        d.rst = false → d.cmdValid = false → d.rspReady = true →
        step t = .next { s with host := later, delivered := s.delivered ++ [⟨status, 0#64⟩] }

/-- R150: on a seeded core every legal command answers with status `OK`. -/
def Obligations.SeededCoreAnswersOk : Prop :=
  ∀ (i : Instr) (s : State), s.seeded = true → ∃ t d, exec i s = .next t ∧ t.rsp = some ⟨.ok, d⟩

/-- R191: a step always has a next state: no fault, no refusal, in any state and whatever the host drives. -/
def Obligations.StepAlwaysGoesOn : Prop := ∀ s : State, ∃ t, step s = .next t

/-! ### Reset and ports (`70_reset_and_hazards.md`, `30_encoding.md`) -/

/-- R33: after reset the core is unseeded, has no response on its port and is ready for a command. The contents of `MT`,
`CUR` and `DC` are the model's choice (log entry 1), and nothing is said of them here. -/
def Obligations.ResetLeavesAnUnseededIdleCore : Prop :=
  State.reset.seeded = false ∧ rspValid State.reset = false ∧ cmdReady State.reset false = true

/-- R180: what an edge with `rst == 1` does, in any state and whatever else the host drives. That a response already on
the port is not delivered, also when `rsp_ready == 1` at that edge, is the model's reading (log entry 7, DEDUCED). -/
def Obligations.ResetEdgeUnseedsTheCore : Prop :=
  ∀ (s : State) (c : HostCycle) (rest : List HostCycle), s.host = c :: rest → c.rst = true →
    cmdReady s c.rst = false ∧ ∃ t, step s = .next t ∧
      t.seeded = false ∧ rspValid t = false ∧ t.delivered = s.delivered ∧ t.host = rest ∧
      cmdReady t false = true

/-- R28: only reset clears `SEEDED`, and only an accepted `SEED` sets it. That the accepting edge finds no response on
the port, also when that response is delivered in the same cycle, is the model's reading (log entry 4, DEDUCED). -/
def Obligations.OnlyResetClearsOnlySeedSets : Prop :=
  ∀ s t : State, step s = .next t →
    (s.seeded = true → t.seeded = false → ∃ c rest, s.host = c :: rest ∧ c.rst = true) ∧
    (s.seeded = false → t.seeded = true → ∃ c rest n, s.host = c :: rest ∧ c.rst = false ∧
      c.cmdValid = true ∧ s.rsp = none ∧ decode c.cmdWord = .ok (.seed n))

/-- R61 items 1 and 4, R189: while a response is on the port no command is taken, whatever the host presents, and the
response stays until the host is ready for it; then it is delivered and the core is ready again. That `cmd_ready == 0`
and no command is taken in the very cycle of delivery is the model's reading (log entry 4, DEDUCED). -/
def Obligations.ResponseIsHeldUntilTaken : Prop :=
  ∀ (s : State) (c : HostCycle) (rest : List HostCycle) (r : Response),
    s.host = c :: rest → c.rst = false → s.rsp = some r →
    cmdReady s c.rst = false ∧
    (c.rspReady = false → step s = .next { s with host := rest }) ∧
    (c.rspReady = true → step s = .next { s with host := rest, rsp := none, delivered := s.delivered ++ [r] })

/-- R192, R61 item 3: `MT`, `CUR`, `DC` and `SEEDED` change only at an edge with `rst == 1` or that accepts a command.
When `cmd_ready == 1` is R61 with the model's reading of the cycle of delivery (log entry 4, DEDUCED). -/
def Obligations.NoChangeWithoutCommandOrReset : Prop :=
  ∀ s t : State, step s = .next t → (t.gen ≠ s.gen ∨ t.seeded ≠ s.seeded) →
    ∃ c rest, s.host = c :: rest ∧ (c.rst = true ∨ (c.cmdValid = true ∧ cmdReady s c.rst = true))

/-- R192, R61 item 2: with `rst == 0`, no command presented and no response on the port, an edge changes nothing: no
response appears and none is delivered. Then the case of a host whose list of inputs has ended: that it drives zeros for
ever is the model's choice (log entry 5, DESIGN CHOICE). -/
def Obligations.IdleCoreStaysAsItIs : Prop :=
  (∀ (s : State) (c : HostCycle) (rest : List HostCycle),
    s.host = c :: rest → c.rst = false → c.cmdValid = false → s.rsp = none → step s = .next { s with host := rest }) ∧
  (∀ s : State, s.host = [] → step s = .next s)

/-- R61 item 2: a response appears on the port only as the response to a word accepted at that edge, which always gives
one, and is delivered only from the port, one at a time, when the host is ready for it. The cycles of acceptance and
delivery are those of log entries 3, 4 and 7, and the record of what was delivered is the model's own (log entry 6). -/
def Obligations.ResponsesComeOnlyFromAcceptedWords : Prop :=
  ∀ s t : State, step s = .next t →
    (∀ r : Response, t.rsp = some r → s.rsp = some r ∨
      ∃ c rest, s.host = c :: rest ∧ c.cmdValid = true ∧ cmdReady s c.rst = true ∧
        r = (transaction c.cmdWord s.gen s.seeded).2.2) ∧
    (∀ c rest, s.host = c :: rest → c.cmdValid = true → cmdReady s c.rst = true →
      t.rsp = some (transaction c.cmdWord s.gen s.seeded).2.2 ∧ t.delivered = s.delivered) ∧
    (t.delivered ≠ s.delivered → ∃ c rest r, s.host = c :: rest ∧ c.rst = false ∧ c.rspReady = true ∧
      s.rsp = some r ∧ t.rsp = none ∧ t.delivered = s.delivered ++ [r])

/-- The step accepts the word on the command port, whatever the word is and whatever the host drives afterwards, in the
state in which the host's cycle is used up: it decodes the word and runs the command, or answers `ERR_ILLEGAL` (R65). And
an opcode-table word placed by `withFetchWord` is the word it runs. -/
def Obligations.StepRunsTheDecodedCommand : Prop :=
  (∀ (s : State) (c : HostCycle) (rest : List HostCycle),
    s.host = c :: rest → c.rst = false → c.cmdValid = true → s.rsp = none →
    step s = accept c.cmdWord { s with host := rest } ∧
    (∀ i : Instr, decode c.cmdWord = .ok i → step s = exec i { s with host := rest }) ∧
    (∀ e : DecodeError, decode c.cmdWord = .error e →
      step s = .next { s with host := rest, rsp := some ⟨.errIllegal, 0#64⟩ })) ∧
  (∀ (s : State) (nbits w : Nat) (i : Instr), decodeTableWord nbits w = some i →
    step (s.withFetchWord nbits w) = exec i { s with rsp := none })

/-- R61: one response per accepted word, in order, all state changes complete: a host that issues the words of a
sequence and takes each response sees exactly the atomic steps `State -> CommandWord -> State x ResponseWord`. That a
word takes two edges, one to accept it and the next to deliver its response, is the model's choice (log entry 3). -/
def Obligations.PortRefinesAtomicTransactions : Prop :=
  ∀ (ws : List PortWord) (s : State), s.rsp = none → s.host = hostProgram ws →
    Sys2Proof.core.run (2 * ws.length) s =
      .next ({ s with
        gen := (transactions ws s.gen s.seeded).1
        seeded := (transactions ws s.gen s.seeded).2.1
        host := []
        delivered := s.delivered ++ (transactions ws s.gen s.seeded).2.2 } : State)

/-! ### The whole machine (`10_state.md`) -/

/-- R22: which command may write which register: frames of all four commands. -/
def Obligations.CommandsWriteOnlyTheirRegisters : Prop :=
  ∀ (i : Instr) (s : State), ∃ t, exec i s = .next t ∧
    t.host = s.host ∧ t.delivered = s.delivered ∧ t.resets = s.resets ∧
    (i = .total → t.gen = s.gen ∧ t.seeded = s.seeded) ∧
    (i = .draw → t.seeded = s.seeded ∧ (s.gen.cur.val ≠ 624 → t.gen.mt = s.gen.mt)) ∧
    (∀ n : DWord, i = .advance n →
      t.seeded = s.seeded ∧ (s.gen.cur.val + n.toNat ≤ 624 → t.gen.mt = s.gen.mt)) ∧
    (s.seeded = false → (∀ n : Word, i ≠ .seed n) → t.gen = s.gen ∧ t.seeded = false)

/-- R24: every step keeps `1 <= CUR <= 624` between commands of a seeded core. -/
def Obligations.StepKeepsCursorInRange : Prop :=
  ∀ s t : State, CursorInv s → step s = .next t → CursorInv t

/-- R24 at reset. -/
def Obligations.CursorInRangeAtReset : Prop := CursorInv State.reset

/-- R27, R123: every step keeps the registers of a seeded core on the sequence of some seed: they are what `SEED seed`
and some number `k` of draws leave. -/
def Obligations.StepStaysOnTheSequence : Prop :=
  ∀ s t : State, OnSequence s → step s = .next t → OnSequence t

/-- The invariant of `StepStaysOnTheSequence` at reset. -/
def Obligations.OnTheSequenceAtReset : Prop := OnSequence State.reset

/-- R27: since the last `SEED`, `DC` is the number of draw steps, modulo 2^64. -/
def Obligations.CounterIsTheNumberOfDraws : Prop :=
  ∀ (seed : Word) (k : Nat), (drawMany k (seedState seed)).dc.toNat = k % 2 ^ 64

/-- R25: Fresh is `k = 0`, Exhausted a positive multiple of 624 draws, Active anything else with `1 <= CUR <= 623`. -/
def Obligations.PhaseFollowsTheDraws : Prop :=
  ∀ (seed : Word) (k : Nat),
    (phaseOf (drawMany k (seedState seed)) k = .fresh ↔ k = 0) ∧
    (phaseOf (drawMany k (seedState seed)) k = .exhausted ↔ 1 ≤ k ∧ k % 624 = 0) ∧
    (phaseOf (drawMany k (seedState seed)) k = .active ↔
      1 ≤ (drawMany k (seedState seed)).cur.val ∧ (drawMany k (seedState seed)).cur.val ≤ 623)

/-- R33, R153: two cores that the host cannot tell apart stay so for any number of steps: the same inputs give the same
responses, whatever `MT`, `CUR` and `DC` held while unseeded and whatever a reset leaves in them. -/
def Obligations.UnseededContentsAreNeverObserved : Prop :=
  ∀ (n : Nat) (s t : State), LooksSame s t → ∃ s' t' : State,
    Sys2Proof.core.run n s = .next s' ∧ Sys2Proof.core.run n t = .next t' ∧ LooksSame s' t'
end

