-- ==== Sys2Proof/Laws/Assembler.lean ====
section
/-!
SUPPORT. What each function that reads a line of text does, in terms of the grammar: the digits, the numbers, the
comment, and the words between blanks.
-/

namespace Sys2Proof.Machine

/-! ### Digits -/

theorem char_eq_iff_toNat_eq (a b : Char) : a = b ↔ a.toNat = b.toNat :=
  ⟨fun h => by rw [h], fun h => Char.ext (UInt32.toNat.inj h)⟩

/-- `Char.toLower` moves the letters `A` to `Z` and nothing else. -/
theorem toLower_toNat (c : Char) :
    c.toLower.toNat = if 65 ≤ c.toNat ∧ c.toNat ≤ 90 then c.toNat + 32 else c.toNat := by
  have upper_iff : (c.val ≥ 'A'.val ∧ c.val ≤ 'Z'.val) ↔ (65 ≤ c.toNat ∧ c.toNat ≤ 90) := by
    simp only [ge_iff_le, UInt32.le_iff_toNat_le]
    rfl
  unfold Char.toLower
  by_cases h : 65 ≤ c.toNat ∧ c.toNat ≤ 90
  · rw [if_pos h, dif_pos (upper_iff.2 h)]
    show (c.val + ('a'.val - 'A'.val)).toNat = _
    rw [UInt32.toNat_add]
    show (c.toNat + 32) % 4294967296 = _
    omega
  · rw [if_neg h, dif_neg (mt upper_iff.1 h)]

theorem digitChar_toNat : ∀ d < 16, (Nat.digitChar d).toNat = if d < 10 then 48 + d else 87 + d := by decide

theorem decDigit_eq_some_iff (c : Char) (d : Nat) : decDigit c = some d ↔ d < 10 ∧ c.toLower = Nat.digitChar d := by
  unfold decDigit
  constructor
  · intro h
    split at h
    · cases h
      refine ⟨by omega, ?_⟩
      rw [char_eq_iff_toNat_eq, toLower_toNat, digitChar_toNat _ (by omega)]
      split <;> split <;> omega
    · cases h
  · rintro ⟨h, e⟩
    rw [char_eq_iff_toNat_eq, toLower_toNat, digitChar_toNat _ (by omega), if_pos h] at e
    split at e
    · omega
    · rw [if_pos (by omega)]
      congr 1
      omega

theorem hexDigit_eq_some_iff (c : Char) (d : Nat) : hexDigit c = some d ↔ d < 16 ∧ c.toLower = Nat.digitChar d := by
  unfold hexDigit
  constructor
  · intro h
    split_ifs at h
    · cases h
      refine ⟨by omega, ?_⟩
      rw [char_eq_iff_toNat_eq, toLower_toNat, digitChar_toNat _ (by omega)]
      split <;> split <;> omega
    · cases h
      refine ⟨by omega, ?_⟩
      rw [char_eq_iff_toNat_eq, toLower_toNat, digitChar_toNat _ (by omega)]
      split <;> split <;> omega
    · obtain ⟨h, e⟩ := (decDigit_eq_some_iff c d).1 h
      exact ⟨by omega, e⟩
  · rintro ⟨h, e⟩
    by_cases h10 : d < 10
    · have hd := (decDigit_eq_some_iff c d).2 ⟨h10, e⟩
      rw [char_eq_iff_toNat_eq, toLower_toNat, digitChar_toNat _ h, if_pos h10] at e
      split at e
      · omega
      · rw [if_neg (by omega), if_neg (by omega), hd]
    · rw [char_eq_iff_toNat_eq, toLower_toNat, digitChar_toNat _ h, if_neg h10] at e
      split at e
      · rw [if_pos (by omega)]
        congr 1
        omega
      · rw [if_neg (by omega), if_pos (by omega)]
        congr 1
        omega

/-- A run of digits is read at its value in the base. -/
theorem digitsFrom_eq_some_iff {base : Nat} {digit : Char → Option Nat}
    (hd : ∀ c d, digit c = some d ↔ d < base ∧ c.toLower = Nat.digitChar d) (cs : List Char) (acc n : Nat) :
    digitsFrom base digit acc cs = some n ↔ ∃ ds : List Nat, (∀ d ∈ ds, d < base) ∧
      cs.map Char.toLower = ds.map Nat.digitChar ∧ n = acc * base ^ ds.length + Nat.ofDigits base ds.reverse := by
  induction cs generalizing acc with
  | nil =>
    constructor
    · intro h
      cases h
      exact ⟨[], by simp, rfl, by simp⟩
    · rintro ⟨ds, -, h, rfl⟩
      obtain rfl : ds = [] := by simpa using h.symm
      simp [digitsFrom]
  | cons c cs ih =>
    simp only [digitsFrom, Option.bind_eq_some_iff, ih, hd]
    constructor
    · rintro ⟨d, ⟨h1, h2⟩, ds, h3, h4, rfl⟩
      refine ⟨d :: ds, by simpa using ⟨h1, h3⟩, by simp [h2, h4], ?_⟩
      rw [List.reverse_cons, Nat.ofDigits_append]
      simp only [List.length_cons, List.length_reverse, pow_succ, Nat.ofDigits_singleton]
      ring
    · rintro ⟨_ | ⟨d, ds⟩, h1, h2, rfl⟩
      · simp at h2
      · obtain ⟨h2, h3⟩ := List.cons.inj h2
        refine ⟨d, ⟨h1 d (by simp), h2⟩, ds, fun x hx => h1 x (by simp [hx]), h3, ?_⟩
        rw [List.reverse_cons, Nat.ofDigits_append]
        simp only [List.length_cons, List.length_reverse, pow_succ, Nat.ofDigits_singleton]
        ring

theorem decimal_eq_some_iff {cs : List Char} (h : cs ≠ []) (n : Nat) :
    digitsFrom 10 decDigit 0 cs = some n ↔ DigitsText 10 cs n := by
  simp [digitsFrom_eq_some_iff decDigit_eq_some_iff, DigitsText, h]

theorem hexadecimal_eq_some_iff {cs : List Char} (h : cs ≠ []) (n : Nat) :
    digitsFrom 16 hexDigit 0 cs = some n ↔ DigitsText 16 cs n := by
  simp [digitsFrom_eq_some_iff hexDigit_eq_some_iff, DigitsText, h]

/-- Digits are neither blanks nor the start of a comment. -/
theorem DigitsText_plain {base : Nat} {cs : List Char} {n : Nat} (hb : base ≤ 16) (h : DigitsText base cs n) :
    ∀ c ∈ cs, ¬ (c = ' ' ∨ c = '\t') ∧ c ≠ ';' := by
  obtain ⟨-, ds, hlt, hmap, -⟩ := h
  intro c hc
  obtain ⟨d, hd, e⟩ := List.mem_map.1 (hmap ▸ List.mem_map_of_mem hc : c.toLower ∈ ds.map Nat.digitChar)
  have hx := (hexDigit_eq_some_iff c d).2 ⟨(hlt d hd).trans_le hb, e.symm⟩
  refine ⟨?_, ?_⟩
  · rintro (rfl | rfl) <;> simp [hexDigit, decDigit] at hx
  · rintro rfl
    simp [hexDigit, decDigit] at hx

/-! ### The comment -/

/-- A line is what stands before its comment, and the comment. -/
theorem dropComment_append (line : List Char) :
    ∃ tail, line = dropComment line ++ tail ∧ (tail = [] ∨ ∃ comment, tail = ';' :: comment) := by
  induction line with
  | nil => exact ⟨[], rfl, .inl rfl⟩
  | cons c cs ih =>
    by_cases h : c = ';'
    · exact ⟨c :: cs, by simp [dropComment, h], .inr ⟨cs, by rw [h]⟩⟩
    · obtain ⟨tail, e, ht⟩ := ih
      exact ⟨tail, by simpa [dropComment, h] using e, ht⟩

theorem dropComment_of_no_semicolon {body tail : List Char} (h : ';' ∉ body)
    (ht : tail = [] ∨ ∃ comment, tail = ';' :: comment) : dropComment (body ++ tail) = body := by
  induction body with
  | nil => rcases ht with rfl | ⟨comment, rfl⟩ <;> simp [dropComment]
  | cons c cs ih =>
    simp only [List.mem_cons, not_or] at h
    simp [dropComment, Ne.symm h.1, ih h.2]

/-! ### The words of a line -/

theorem SpacedWords_blank_cons {c : Char} {ws : List (List Char)} {cs : List Char} (hc : c = ' ' ∨ c = '\t')
    (h : SpacedWords ws cs) : SpacedWords ws (c :: cs) := by
  cases ws with
  | nil => exact List.forall_mem_cons.2 ⟨hc, h⟩
  | cons w ws =>
    obtain ⟨lead, rest, e, hl, hr, hw⟩ := h
    exact ⟨c :: lead, rest, by simp [e], List.forall_mem_cons.2 ⟨hc, hl⟩, hr, hw⟩

/-- What `tokensFrom` reads is there, when it starts a word and when it is inside one. -/
theorem tokensFrom_spaced (cs : List Char) :
    SpacedWords (tokensFrom [] cs) cs ∧
    ∀ cur, cur ≠ [] → ∃ u rest ws, tokensFrom cur cs = (cur ++ u) :: ws ∧ cs = u ++ rest ∧
      (rest = [] ∨ ∃ c more, rest = c :: more ∧ IsBlank [c]) ∧ SpacedWords ws rest := by
  induction cs with
  | nil =>
    exact ⟨by simp [tokensFrom, SpacedWords, IsBlank], fun cur h =>
      ⟨[], [], [], by simp [tokensFrom, h], rfl, .inl rfl, by simp [SpacedWords, IsBlank]⟩⟩
  | cons c cs ih =>
    by_cases hb : c = ' ' ∨ c = '\t'
    · have blank := SpacedWords_blank_cons hb ih.1
      exact ⟨by simpa [tokensFrom, hb] using blank, fun cur h =>
        ⟨[], c :: cs, _, by simp [tokensFrom, hb, h], rfl, .inr ⟨_, _, rfl, by simpa [IsBlank] using hb⟩, blank⟩⟩
    · refine ⟨?_, fun cur h => ?_⟩
      · obtain ⟨u, rest, ws, e, h1, h2, h3⟩ := ih.2 [c] (by simp)
        simp only [tokensFrom, hb, if_false, List.nil_append, e]
        exact ⟨[], rest, by simp [h1], by simp [IsBlank], h2, h3⟩
      · obtain ⟨u, rest, ws, e, h1, h2, h3⟩ := ih.2 (cur ++ [c]) (by simp)
        simp only [tokensFrom, hb, if_false, e]
        exact ⟨c :: u, rest, ws, by simp, by simp [h1], h2, h3⟩

theorem tokensFrom_blank_append {lead : List Char} (h : IsBlank lead) (cs : List Char) :
    tokensFrom [] (lead ++ cs) = tokensFrom [] cs := by
  induction lead with
  | nil => rfl
  | cons c lead ih =>
    obtain ⟨hc, hl⟩ := List.forall_mem_cons.1 h
    simpa [tokensFrom, hc] using ih hl

theorem tokensFrom_word_append {w : List Char} (h : ∀ c ∈ w, ¬ (c = ' ' ∨ c = '\t')) (cur cs : List Char) :
    tokensFrom cur (w ++ cs) = tokensFrom (cur ++ w) cs := by
  induction w generalizing cur with
  | nil => simp
  | cons c w ih =>
    obtain ⟨hc, hw⟩ := List.forall_mem_cons.1 h
    simp [tokensFrom, hc, ih hw]

/-- Words without blanks, set apart by blanks, are what `tokensFrom` reads. -/
theorem tokensFrom_of_spaced {ws : List (List Char)} {cs : List Char}
    (hw : ∀ w ∈ ws, w ≠ [] ∧ ∀ c ∈ w, ¬ (c = ' ' ∨ c = '\t')) (h : SpacedWords ws cs) : tokensFrom [] cs = ws := by
  induction ws generalizing cs with
  | nil => simpa [tokensFrom] using tokensFrom_blank_append h []
  | cons w ws ih =>
    obtain ⟨lead, rest, rfl, hl, hr, hs⟩ := h
    obtain ⟨⟨hne, hplain⟩, hws⟩ := List.forall_mem_cons.1 hw
    have later := ih hws hs
    rw [List.append_assoc, tokensFrom_blank_append hl, tokensFrom_word_append hplain]
    rcases hr with rfl | ⟨c, more, rfl, hc⟩
    · simp_all [tokensFrom]
    · have hb := hc c (by simp)
      simp_all [tokensFrom]

end Sys2Proof.Machine
end

