-- ==== Sys2Proof/Laws/Generator.lean ====
section
/-!
SUPPORT. What the operations on the generator registers do: reads and writes of `MT`, the words of a run of the seeding
recurrence and of a run of twist steps, and the draw step.
-/

namespace Sys2Proof.Machine

/-! ### Reads and writes of `MT` -/

@[simp] theorem wrapIndex_val (j : Nat) : (wrapIndex j).val = j % 624 := rfl

/-- An index already in range is not changed (R41). -/
theorem wrapIndex_val_of_lt {j : Nat} (h : j < 624) : (wrapIndex j).val = j := Nat.mod_eq_of_lt h

/-- Every index is the reduced form of its number. -/
@[simp] theorem wrapIndex_fin (i : Fin 624) : wrapIndex i.val = i := Fin.ext (Nat.mod_eq_of_lt i.isLt)

theorem readMT_eq_getElem (mt : Vector Word 624) (i : Fin 624) : readMT mt i = mt[i.val] := rfl

/-- A read of the word just written gives the value written. -/
@[simp] theorem readMT_writeMT_same (mt : Vector Word 624) (i : Fin 624) (v : Word) :
    readMT (writeMT mt i v) i = v := by
  simp [readMT_eq_getElem, writeMT]

/-- A write leaves every other word alone. -/
theorem readMT_writeMT_of_ne {mt : Vector Word 624} {i j : Fin 624} {v : Word} (h : i ≠ j) :
    readMT (writeMT mt i v) j = readMT mt j := by
  have hv : i.val ≠ j.val := fun e => h (Fin.ext e)
  simp [readMT_eq_getElem, writeMT, hv]

/-- Two blocks are equal when all their words are. -/
theorem mt_ext {a b : Vector Word 624} (h : ∀ i : Fin 624, readMT a i = readMT b i) : a = b :=
  Vector.ext fun i hi => h ⟨i, hi⟩

/-! ### The seeding recurrence -/

/-- The first word of a run. -/
theorem getElem_seedFrom_zero (w : Word) (i n : Nat) (h : 0 < (seedFrom w i n).length) : (seedFrom w i n)[0] = w := by
  cases n with
  | zero => simp [seedFrom] at h
  | succ n => simp [seedFrom]

/-- Each later word of a run is the next of the one before it. -/
theorem getElem_seedFrom_succ (w : Word) (i n k : Nat) (h : k + 1 < (seedFrom w i n).length) :
    (seedFrom w i n)[k + 1] = seedNext ((seedFrom w i n)[k]'(by omega)) (i + k) := by
  induction k generalizing w i n with
  | zero =>
    cases n with
    | zero => simp [seedFrom] at h
    | succ n =>
      simp only [seedFrom, List.getElem_cons_succ, List.getElem_cons_zero, Nat.add_zero]
      exact getElem_seedFrom_zero _ _ _ _
  | succ k ih =>
    cases n with
    | zero => simp [seedFrom] at h
    | succ n =>
      simp only [seedFrom, List.length_cons, Nat.add_lt_add_iff_right, List.getElem_cons_succ] at h ⊢
      rw [ih _ _ _ h]
      congr 1
      omega

/-! ### Runs of twist steps -/

theorem length_twistLow {old : List Word} (h : old.length = 624) : (twistLow old).length = 227 := by
  simp [twistLow, length_twistRun, h]

theorem length_twistMid {old : List Word} (h : old.length = 624) : (twistMid old).length = 227 := by
  simp [twistMid, length_twistRun, length_twistLow h, h]

theorem length_twistHigh {old : List Word} (h : old.length = 624) : (twistHigh old).length = 170 := by
  simp [twistHigh, length_twistRun, length_twistMid h, length_twistLow h, h]

/-- Words 0..226 of the new block. -/
theorem twistList_low {old : List Word} (h : old.length = 624) (k : Nat) (hk : k < 227) :
    (twistList old)[k]? = (twistLow old)[k]? := by
  have := length_twistLow h
  rw [twistList, List.append_assoc, List.getElem?_append_left (by omega)]

/-- Words 227..453 of the new block. -/
theorem twistList_mid {old : List Word} (h : old.length = 624) (k : Nat) (hk : 227 ≤ k) (hk' : k < 454) :
    (twistList old)[k]? = (twistMid old)[k - 227]? := by
  have hA := length_twistLow h
  have hB := length_twistMid h
  rw [twistList, List.append_assoc, List.getElem?_append_right (by omega), hA,
    List.getElem?_append_left (by omega)]

/-- Words 454..623 of the new block. -/
theorem twistList_high {old : List Word} (h : old.length = 624) (k : Nat) (hk : 454 ≤ k) :
    (twistList old)[k]? = (twistHigh old)[k - 454]? := by
  have hA := length_twistLow h
  have hB := length_twistMid h
  rw [twistList, List.append_assoc, List.getElem?_append_right (by omega), hA,
    List.getElem?_append_right (by omega), hB, show k - 227 - 227 = k - 454 by omega]

/-- The words of a run, from the words of its three lists. -/
theorem getElem?_twistRun {as bs cs : List Word} {k : Nat} {a b c : Word} (ha : as[k]? = some a)
    (hb : bs[k]? = some b) (hc : cs[k]? = some c) : (twistRun as bs cs)[k]? = some (twistNext a b c) := by
  induction as generalizing bs cs k with
  | nil => simp at ha
  | cons x as ih =>
    cases bs with
    | nil => simp at hb
    | cons y bs =>
      cases cs with
      | nil => simp at hc
      | cons z cs =>
        cases k with
        | zero => simp_all [twistRun]
        | succ k =>
          simp only [twistRun, List.getElem?_cons_succ] at *
          exact ih ha hb hc

/-- The words of a block as a list. -/
theorem getElem?_toList_eq_readMT (mt : Vector Word 624) (j : Nat) (hj : j < 624) :
    mt.toList[j]? = some (readMT mt (wrapIndex j)) := by
  rw [readMT_eq_getElem]
  simp only [wrapIndex_val, Nat.mod_eq_of_lt hj]
  rw [List.getElem?_eq_getElem (by rw [Vector.length_toList]; exact hj), Vector.getElem_toList]

theorem toList_twist (old : Vector Word 624) : (twist old).toList = twistList old.toList := rfl

/-- Everything `twist` does, word by word: word `i` of the new block is one twist step whose second operand is the NEW
word 0 in step 623, and whose third operand is the NEW word `i - 227` from step 227 on (R101). -/
theorem readMT_twist (old : Vector Word 624) (i : Fin 624) :
    readMT (twist old) i =
      twistNext (readMT old i)
        (if i.val = 623 then readMT (twist old) (wrapIndex 0) else readMT old (wrapIndex (i.val + 1)))
        (if i.val ≤ 226 then readMT old (wrapIndex (i.val + 397))
          else readMT (twist old) (wrapIndex (i.val - 227))) := by
  have hl : old.toList.length = 624 := Vector.length_toList
  obtain ⟨i, hi⟩ := i
  have new : ∀ j, j < 624 → (twistList old.toList)[j]? = some (readMT (twist old) (wrapIndex j)) := fun j hj => by
    rw [← toList_twist]; exact getElem?_toList_eq_readMT _ j hj
  have o := getElem?_toList_eq_readMT old
  have e : (⟨i, hi⟩ : Fin 624) = wrapIndex i := (wrapIndex_fin ⟨i, hi⟩).symm
  rw [e]
  simp only [wrapIndex_val, Nat.mod_eq_of_lt hi]
  have goal : (twistList old.toList)[i]? =
      some (twistNext (readMT old (wrapIndex i))
        (if i = 623 then readMT (twist old) (wrapIndex 0) else readMT old (wrapIndex (i + 1)))
        (if i ≤ 226 then readMT old (wrapIndex (i + 397)) else readMT (twist old) (wrapIndex (i - 227)))) := by
    by_cases c1 : i ≤ 226
    · rw [twistList_low hl i (by omega), if_neg (by omega), if_pos c1]
      refine getElem?_twistRun (o i (by omega)) ?_ ?_
      · rw [List.getElem?_drop, Nat.add_comm]; exact o _ (by omega)
      · rw [List.getElem?_drop, Nat.add_comm]; exact o _ (by omega)
    · rw [if_neg c1]
      by_cases c2 : i < 454
      · rw [twistList_mid hl i (by omega) c2, if_neg (by omega)]
        refine getElem?_twistRun ?_ ?_ ?_
        · rw [List.getElem?_drop, show 227 + (i - 227) = i by omega]; exact o _ (by omega)
        · rw [List.getElem?_drop, show 228 + (i - 227) = i + 1 by omega]; exact o _ (by omega)
        · rw [← twistList_low hl _ (by omega)]; exact new _ (by omega)
      · rw [twistList_high hl i (by omega)]
        refine getElem?_twistRun ?_ ?_ ?_
        · rw [List.getElem?_drop, show 454 + (i - 454) = i by omega]; exact o _ (by omega)
        · by_cases c3 : i = 623
          · rw [if_pos c3, List.getElem?_append_right (by rw [List.length_drop]; omega), List.length_drop, hl,
              show i - 454 - (624 - 455) = 0 by omega, List.getElem?_take_of_lt (by omega),
              ← twistList_low hl _ (by omega)]
            exact new 0 (by omega)
          · rw [if_neg c3, List.getElem?_append_left (by rw [List.length_drop]; omega), List.getElem?_drop,
              show 455 + (i - 454) = i + 1 by omega]
            exact o _ (by omega)
        · rw [show i - 454 = (i - 227) - 227 by omega, ← twistList_mid hl _ (by omega) (by omega)]
          exact new _ (by omega)
  rw [new i hi] at goal
  exact Option.some.inj goal

/-! ### The draw step -/

/-- A draw on a used-up block: the twist, then the new `MT[0]`. -/
theorem drawStep_of_used {g : GeneratorState} (h : g.cur.val = 624) :
    drawStep g = extractAt 0 (twistState g) := by
  simp [drawStep, h]

/-- A draw inside a block: the word at the cursor, no twist. -/
theorem drawStep_of_active {g : GeneratorState} (h : g.cur.val ≠ 624) :
    drawStep g = extractAt ⟨g.cur.val, by omega⟩ g := by
  simp [drawStep, h]

@[simp] theorem extractAt_value (i : Fin 624) (g : GeneratorState) :
    (extractAt i g).1 = temper (readMT g.mt i) := rfl

@[simp] theorem extractAt_mt (i : Fin 624) (g : GeneratorState) : (extractAt i g).2.mt = g.mt := rfl

@[simp] theorem extractAt_cur (i : Fin 624) (g : GeneratorState) : (extractAt i g).2.cur = i.succ := rfl

@[simp] theorem extractAt_dc (i : Fin 624) (g : GeneratorState) : (extractAt i g).2.dc = add64 g.dc 1#64 := rfl

@[simp] theorem twistState_mt (g : GeneratorState) : (twistState g).mt = twist g.mt := rfl

@[simp] theorem twistState_cur (g : GeneratorState) : (twistState g).cur = 0 := rfl

@[simp] theorem twistState_dc (g : GeneratorState) : (twistState g).dc = g.dc := rfl

/-- Every draw counts one, with or without a twist. -/
theorem drawNext_dc (g : GeneratorState) : (drawNext g).dc = add64 g.dc 1#64 := by
  by_cases h : g.cur.val = 624
  · simp [drawNext, drawStep_of_used h]
  · simp [drawNext, drawStep_of_active h]

/-- The cursor after a draw: 1 after a twist, one more otherwise. -/
theorem drawNext_cur (g : GeneratorState) :
    (drawNext g).cur.val = if g.cur.val = 624 then 1 else g.cur.val + 1 := by
  by_cases h : g.cur.val = 624
  · simp [drawNext, drawStep_of_used h, h]
  · simp [drawNext, drawStep_of_active h, h]

/-- The block after a draw: twisted exactly when the block was used up. -/
theorem drawNext_mt (g : GeneratorState) : (drawNext g).mt = if g.cur.val = 624 then twist g.mt else g.mt := by
  by_cases h : g.cur.val = 624
  · simp [drawNext, drawStep_of_used h, h]
  · simp [drawNext, drawStep_of_active h, h]

/-- After a draw the cursor is never 0. -/
theorem drawNext_cur_pos (g : GeneratorState) : 1 ≤ (drawNext g).cur.val := by
  rw [drawNext_cur]
  split <;> omega

@[simp] theorem drawMany_zero (g : GeneratorState) : drawMany 0 g = g := rfl

/-- The first of `n + 1` draws, then the rest. -/
theorem drawMany_succ (n : Nat) (g : GeneratorState) : drawMany (n + 1) g = drawMany n (drawNext g) := rfl

/-- `n` draws and then one more. -/
theorem drawMany_succ' (n : Nat) (g : GeneratorState) : drawMany (n + 1) g = drawNext (drawMany n g) :=
  Function.iterate_succ_apply' drawNext n g

/-- Draws add up. -/
theorem drawMany_add (m n : Nat) (g : GeneratorState) : drawMany (m + n) g = drawMany n (drawMany m g) := by
  rw [Nat.add_comm]
  exact Function.iterate_add_apply drawNext n m g

end Sys2Proof.Machine
end

