-- ==== Sys2Proof/Laws/State.lean ====
section
/-!
SUPPORT. One lemma per field per update of State, so that no later proof unfolds a record update; and what the two
shared operations `respond` and `raiseException` leave.
-/

namespace Sys2Proof.Machine

variable (s : State)

@[simp] theorem State.setGen_gen (g : GeneratorState) : (s.setGen g).gen = g := rfl
@[simp] theorem State.setGen_seeded (g : GeneratorState) : (s.setGen g).seeded = s.seeded := rfl
@[simp] theorem State.setGen_rsp (g : GeneratorState) : (s.setGen g).rsp = s.rsp := rfl
@[simp] theorem State.setGen_host (g : GeneratorState) : (s.setGen g).host = s.host := rfl
@[simp] theorem State.setGen_delivered (g : GeneratorState) : (s.setGen g).delivered = s.delivered := rfl
@[simp] theorem State.setGen_resets (g : GeneratorState) : (s.setGen g).resets = s.resets := rfl

@[simp] theorem State.setSeeded_gen (b : Bool) : (s.setSeeded b).gen = s.gen := rfl
@[simp] theorem State.setSeeded_seeded (b : Bool) : (s.setSeeded b).seeded = b := rfl
@[simp] theorem State.setSeeded_rsp (b : Bool) : (s.setSeeded b).rsp = s.rsp := rfl
@[simp] theorem State.setSeeded_host (b : Bool) : (s.setSeeded b).host = s.host := rfl
@[simp] theorem State.setSeeded_delivered (b : Bool) : (s.setSeeded b).delivered = s.delivered := rfl
@[simp] theorem State.setSeeded_resets (b : Bool) : (s.setSeeded b).resets = s.resets := rfl

@[simp] theorem State.setRsp_gen (r : Option Response) : (s.setRsp r).gen = s.gen := rfl
@[simp] theorem State.setRsp_seeded (r : Option Response) : (s.setRsp r).seeded = s.seeded := rfl
@[simp] theorem State.setRsp_rsp (r : Option Response) : (s.setRsp r).rsp = r := rfl
@[simp] theorem State.setRsp_host (r : Option Response) : (s.setRsp r).host = s.host := rfl
@[simp] theorem State.setRsp_delivered (r : Option Response) : (s.setRsp r).delivered = s.delivered := rfl
@[simp] theorem State.setRsp_resets (r : Option Response) : (s.setRsp r).resets = s.resets := rfl

@[simp] theorem State.setHost_gen (h : List HostCycle) : (s.setHost h).gen = s.gen := rfl
@[simp] theorem State.setHost_seeded (h : List HostCycle) : (s.setHost h).seeded = s.seeded := rfl
@[simp] theorem State.setHost_rsp (h : List HostCycle) : (s.setHost h).rsp = s.rsp := rfl
@[simp] theorem State.setHost_host (h : List HostCycle) : (s.setHost h).host = h := rfl
@[simp] theorem State.setHost_delivered (h : List HostCycle) : (s.setHost h).delivered = s.delivered := rfl
@[simp] theorem State.setHost_resets (h : List HostCycle) : (s.setHost h).resets = s.resets := rfl

@[simp] theorem State.setDelivered_gen (d : List Response) : (s.setDelivered d).gen = s.gen := rfl
@[simp] theorem State.setDelivered_seeded (d : List Response) : (s.setDelivered d).seeded = s.seeded := rfl
@[simp] theorem State.setDelivered_rsp (d : List Response) : (s.setDelivered d).rsp = s.rsp := rfl
@[simp] theorem State.setDelivered_host (d : List Response) : (s.setDelivered d).host = s.host := rfl
@[simp] theorem State.setDelivered_delivered (d : List Response) : (s.setDelivered d).delivered = d := rfl
@[simp] theorem State.setDelivered_resets (d : List Response) : (s.setDelivered d).resets = s.resets := rfl

@[simp] theorem State.setResets_gen (k : Nat) : (s.setResets k).gen = s.gen := rfl
@[simp] theorem State.setResets_seeded (k : Nat) : (s.setResets k).seeded = s.seeded := rfl
@[simp] theorem State.setResets_rsp (k : Nat) : (s.setResets k).rsp = s.rsp := rfl
@[simp] theorem State.setResets_host (k : Nat) : (s.setResets k).host = s.host := rfl
@[simp] theorem State.setResets_delivered (k : Nat) : (s.setResets k).delivered = s.delivered := rfl
@[simp] theorem State.setResets_resets (k : Nat) : (s.setResets k).resets = k := rfl

@[simp] theorem respond_gen (st : Status) (d : DWord) : (respond st d s).gen = s.gen := rfl
@[simp] theorem respond_seeded (st : Status) (d : DWord) : (respond st d s).seeded = s.seeded := rfl
@[simp] theorem respond_rsp (st : Status) (d : DWord) : (respond st d s).rsp = some ⟨st, d⟩ := rfl
@[simp] theorem respond_host (st : Status) (d : DWord) : (respond st d s).host = s.host := rfl
@[simp] theorem respond_delivered (st : Status) (d : DWord) : (respond st d s).delivered = s.delivered := rfl
@[simp] theorem respond_resets (st : Status) (d : DWord) : (respond st d s).resets = s.resets := rfl

@[simp] theorem raiseException_gen (e : CoreException) : (raiseException e s).gen = s.gen := rfl
@[simp] theorem raiseException_seeded (e : CoreException) : (raiseException e s).seeded = s.seeded := rfl
@[simp] theorem raiseException_rsp (e : CoreException) : (raiseException e s).rsp = some ⟨exceptionStatus e, 0#64⟩ := rfl
@[simp] theorem raiseException_host (e : CoreException) : (raiseException e s).host = s.host := rfl
@[simp] theorem raiseException_delivered (e : CoreException) : (raiseException e s).delivered = s.delivered := rfl
@[simp] theorem raiseException_resets (e : CoreException) : (raiseException e s).resets = s.resets := rfl

@[simp] theorem exceptionStatus_illegalCommand : exceptionStatus .illegalCommand = .errIllegal := rfl

@[simp] theorem exceptionStatus_unseeded : exceptionStatus .unseeded = .errUnseeded := rfl

/-- A response replaces the one on the port: nothing of the earlier one remains. -/
@[simp] theorem respond_respond (st st' : Status) (d d' : DWord) :
    respond st d (respond st' d' s) = respond st d s := rfl

/-- The check of `SEEDED` on a seeded core: it goes on. -/
theorem requireSeeded_of_seeded (k : State → State) (h : s.seeded = true) : requireSeeded k s = k s := by
  simp [requireSeeded, h]

/-- The check of `SEEDED` on an unseeded core: `Unseeded`, and `k` does not run. -/
theorem requireSeeded_of_unseeded (k : State → State) (h : s.seeded = false) :
    requireSeeded k s = raiseException .unseeded s := by
  simp [requireSeeded, h]

end Sys2Proof.Machine
end

