-- ==== Sys2Proof/Laws/Commands.lean ====
section
/-!
SUPPORT. What the dispatch can do, said once: every command answers a next state, which `outcomeState` names, and what
of it each command may have changed.
-/

namespace Sys2Proof.Machine

/-- The next state of a command. -/
def outcomeState (i : Instr) (s : State) : State :=
  match i with
  | .seed n => respond .ok 0#64 ((s.setGen (seedState n)).setSeeded true)
  | .draw => requireSeeded drawSeeded s
  | .advance n => requireSeeded (advanceSeeded n) s
  | .total => requireSeeded totalSeeded s

/-- Every command answers a next state, and it is this one. -/
theorem exec_eq_next (i : Instr) (s : State) : exec i s = .next (outcomeState i s) := by
  cases i <;> rfl

variable (s : State)

@[simp] theorem drawSeeded_gen : (drawSeeded s).gen = drawNext s.gen := rfl

@[simp] theorem drawSeeded_seeded : (drawSeeded s).seeded = s.seeded := rfl

@[simp] theorem drawSeeded_rsp : (drawSeeded s).rsp = some ⟨.ok, zext64 (drawStep s.gen).1⟩ := rfl

@[simp] theorem advanceSeeded_gen (n : DWord) : (advanceSeeded n s).gen = drawMany n.toNat s.gen := rfl

@[simp] theorem advanceSeeded_seeded (n : DWord) : (advanceSeeded n s).seeded = s.seeded := rfl

@[simp] theorem advanceSeeded_rsp (n : DWord) : (advanceSeeded n s).rsp = some ⟨.ok, 0#64⟩ := rfl

@[simp] theorem totalSeeded_gen : (totalSeeded s).gen = s.gen := rfl

@[simp] theorem totalSeeded_seeded : (totalSeeded s).seeded = s.seeded := rfl

@[simp] theorem totalSeeded_rsp : (totalSeeded s).rsp = some ⟨.ok, s.gen.dc⟩ := rfl

/-- No command touches what belongs to the host or counts resets. -/
theorem outcomeState_frame (i : Instr) :
    (outcomeState i s).host = s.host ∧ (outcomeState i s).delivered = s.delivered ∧
      (outcomeState i s).resets = s.resets := by
  cases i <;> simp only [outcomeState, requireSeeded] <;> (try split) <;> exact ⟨rfl, rfl, rfl⟩

/-- Every command leaves a response on the port. -/
theorem outcomeState_rsp_isSome (i : Instr) : (outcomeState i s).rsp.isSome = true := by
  cases i <;> simp only [outcomeState, requireSeeded] <;> (try split) <;> rfl

end Sys2Proof.Machine
end

