-- ==== Sys2Proof/Laws/Decode.lean ====
section
/-!
SUPPORT. The fields of a command word as numbers, and of a word built from two fields.
-/

namespace Sys2Proof

@[simp] theorem opField_toNat (w : PortWord) : (opField w).toNat = w.toNat / 2 ^ 64 := by
  have := w.isLt
  simp only [opField, BitVec.extractLsb'_toNat, Nat.shiftRight_eq_div_pow]
  omega

@[simp] theorem argField_toNat (w : PortWord) : (argField w).toNat = w.toNat % 2 ^ 64 := by
  simp [argField, BitVec.extractLsb'_toNat]

@[simp] theorem seedField_toNat (w : PortWord) : (seedField w).toNat = w.toNat % 2 ^ 32 := by
  simp [seedField, BitVec.extractLsb'_toNat]

@[simp] theorem seedReservedField_toNat (w : PortWord) :
    (seedReservedField w).toNat = w.toNat / 2 ^ 32 % 2 ^ 32 := by
  simp [seedReservedField, BitVec.extractLsb'_toNat, Nat.shiftRight_eq_div_pow]

/-- A command word as a number. -/
theorem commandWord_toNat (op : BitVec 8) (arg : DWord) :
    (commandWord op arg).toNat = op.toNat * 2 ^ 64 + arg.toNat := by
  have := arg.isLt
  simp only [commandWord, BitVec.toNat_append]
  rw [Nat.shiftLeft_eq, Nat.mul_comm, ← Nat.two_pow_add_eq_or_of_lt (by omega)]

/-- The opcode of a word built from its fields. -/
@[simp] theorem opField_commandWord (op : BitVec 8) (arg : DWord) : opField (commandWord op arg) = op := by
  apply BitVec.eq_of_toNat_eq
  have := arg.isLt
  simp only [opField_toNat, commandWord_toNat]
  omega

/-- The operand field of a word built from its fields. -/
@[simp] theorem argField_commandWord (op : BitVec 8) (arg : DWord) : argField (commandWord op arg) = arg := by
  apply BitVec.eq_of_toNat_eq
  have := arg.isLt
  simp only [argField_toNat, commandWord_toNat]
  omega

/-- When the decoder's tests hold, in terms of the word's number. -/
theorem opField_eq_iff (w : PortWord) (k : BitVec 8) : opField w = k ↔ w.toNat / 2 ^ 64 = k.toNat := by
  rw [← BitVec.toNat_inj, opField_toNat]

theorem argField_eq_zero_iff (w : PortWord) : argField w = 0#64 ↔ w.toNat % 2 ^ 64 = 0 := by
  rw [← BitVec.toNat_inj, argField_toNat]
  rfl

theorem seedReservedField_eq_zero_iff (w : PortWord) :
    seedReservedField w = 0#32 ↔ w.toNat / 2 ^ 32 % 2 ^ 32 = 0 := by
  rw [← BitVec.toNat_inj, seedReservedField_toNat]
  rfl

/-- A row of the opcode map hits a word, in terms of their numbers. -/
theorem OpcodeRow.hits_iff (r : OpcodeRow) (w : PortWord) :
    r.hits w = true ↔ w.toNat &&& r.mask.toNat = r.value.toNat := by
  simp [OpcodeRow.hits, ← BitVec.toNat_inj]

/-- Every `Instr` is well formed: the operand types are the fields' widths (R64). -/
theorem Laws.Instr_wellFormed (i : Instr) : i.wellFormed = true := by
  cases i with
  | seed s => simpa [Instr.wellFormed] using s.isLt
  | draw => rfl
  | advance c => simpa [Instr.wellFormed] using c.isLt
  | total => rfl

end Sys2Proof
end

