-- ==== Sys2Proof/Laws/PerInstr.lean ====
section
/-!
SUPPORT. A statement made for every command, one lemma per constructor: the fields of its encoded word.
-/

namespace Sys2Proof.Laws.EncodedFields

/-- The word of a command has the opcode that R63 gives its mnemonic, and its operand, zero-extended, is the whole of
`arg`: no reserved bit is set (R64). -/
def Statement (i : Instr) : Prop :=
  (opField (encode i)).toNat =
    (match i with
     | .seed _ => 1
     | .draw => 2
     | .advance _ => 3
     | .total => 4) ∧
  (argField (encode i)).toNat =
    (match i with
     | .seed n => n.toNat
     | .draw => 0
     | .advance n => n.toNat
     | .total => 0)

theorem seed (n : Word) : Statement (.seed n) := by
  have := n.isLt
  simp only [Statement, encode, opField_commandWord, argField_commandWord, BitVec.toNat_setWidth]
  exact ⟨rfl, by omega⟩

theorem draw : Statement .draw := by
  simp [Statement, encode, -opField_toNat, -argField_toNat]

theorem advance (n : DWord) : Statement (.advance n) := by
  simp [Statement, encode, -opField_toNat, -argField_toNat]

theorem total : Statement .total := by
  simp [Statement, encode, -opField_toNat, -argField_toNat]

end Sys2Proof.Laws.EncodedFields
end

