-- ==== Sys2Proof/Laws/Port.lean ====
section
/-!
SUPPORT. What a step can do, said once: it always has a next state, and one of six cases holds.
-/

namespace Sys2Proof.Machine

/-- The next state of an accepted word. -/
def acceptedState (w : PortWord) (s : State) : State :=
  match decode w with
  | .ok i => outcomeState i s
  | .error _ => raiseException .illegalCommand s

theorem accept_eq_next (w : PortWord) (s : State) : accept w s = .next (acceptedState w s) := by
  cases h : decode w <;> simp [accept, acceptedState, h, exec_eq_next]

variable {s : State} {c : HostCycle} {rest : List HostCycle}

/-- Nothing more from the host: nothing changes. -/
theorem step_of_idle (h : s.host = []) : step s = .next s := by
  simp [step, nextEdge, h]

/-- An edge with `rst == 1`. -/
theorem step_of_reset (h : s.host = c :: rest) (hr : c.rst = true) :
    step s = .next (resetEdge (s.setHost rest)) := by
  simp [step, nextEdge, h, portEdge, hr]

/-- A response is on the port and the host is not ready for it. -/
theorem step_of_held {r : Response} (h : s.host = c :: rest) (hr : c.rst = false) (hs : s.rsp = some r)
    (ht : c.rspReady = false) : step s = .next (s.setHost rest) := by
  simp [step, nextEdge, h, portEdge, hr, hs, ht]

/-- A response is delivered. -/
theorem step_of_delivery {r : Response} (h : s.host = c :: rest) (hr : c.rst = false) (hs : s.rsp = some r)
    (ht : c.rspReady = true) : step s = .next (deliver r (s.setHost rest)) := by
  simp [step, nextEdge, h, portEdge, hr, hs, ht]

/-- The port is free and the host presents nothing. -/
theorem step_of_no_command (h : s.host = c :: rest) (hr : c.rst = false) (hs : s.rsp = none)
    (hv : c.cmdValid = false) : step s = .next (s.setHost rest) := by
  simp [step, nextEdge, h, portEdge, hr, hs, hv]

/-- The port is free and the host presents a word: it is accepted. -/
theorem step_of_command (h : s.host = c :: rest) (hr : c.rst = false) (hs : s.rsp = none)
    (hv : c.cmdValid = true) : step s = accept c.cmdWord (s.setHost rest) := by
  simp [step, nextEdge, h, portEdge, hr, hs, hv]

/-- Everything a step can do. -/
theorem step_cases {t : State} (ht : step s = .next t) :
    (s.host = [] ∧ t = s) ∨
    ∃ c rest, s.host = c :: rest ∧
      ((c.rst = true ∧ t = resetEdge (s.setHost rest)) ∨
       (c.rst = false ∧ ∃ r, s.rsp = some r ∧
         ((c.rspReady = false ∧ t = s.setHost rest) ∨ (c.rspReady = true ∧ t = deliver r (s.setHost rest)))) ∨
       (c.rst = false ∧ s.rsp = none ∧
         ((c.cmdValid = false ∧ t = s.setHost rest) ∨
          (c.cmdValid = true ∧ t = acceptedState c.cmdWord (s.setHost rest))))) := by
  cases hh : s.host with
  | nil =>
    rw [step_of_idle hh] at ht
    exact .inl ⟨rfl, (Host.Outcome.next.inj ht).symm⟩
  | cons c rest =>
    refine .inr ⟨c, rest, rfl, ?_⟩
    cases hr : c.rst with
    | true =>
      rw [step_of_reset hh hr] at ht
      exact .inl ⟨rfl, (Host.Outcome.next.inj ht).symm⟩
    | false =>
      cases hs : s.rsp with
      | some r =>
        cases hd : c.rspReady with
        | false =>
          rw [step_of_held hh hr hs hd] at ht
          exact .inr (.inl ⟨rfl, r, rfl, .inl ⟨rfl, (Host.Outcome.next.inj ht).symm⟩⟩)
        | true =>
          rw [step_of_delivery hh hr hs hd] at ht
          exact .inr (.inl ⟨rfl, r, rfl, .inr ⟨rfl, (Host.Outcome.next.inj ht).symm⟩⟩)
      | none =>
        cases hv : c.cmdValid with
        | false =>
          rw [step_of_no_command hh hr hs hv] at ht
          exact .inr (.inr ⟨rfl, rfl, .inl ⟨rfl, (Host.Outcome.next.inj ht).symm⟩⟩)
        | true =>
          rw [step_of_command hh hr hs hv, accept_eq_next] at ht
          exact .inr (.inr ⟨rfl, rfl, .inr ⟨rfl, (Host.Outcome.next.inj ht).symm⟩⟩)

/-- What a reset edge leaves of the fields that are not free values. -/
theorem resetEdge_frame (s : State) :
    (resetEdge s).seeded = false ∧ (resetEdge s).rsp = none ∧ (resetEdge s).host = s.host ∧
      (resetEdge s).delivered = s.delivered ∧ (resetEdge s).resets = s.resets + 1 :=
  ⟨rfl, rfl, rfl, rfl, rfl⟩

/-- A delivery changes the port and the record only. -/
theorem deliver_frame (r : Response) (s : State) :
    (deliver r s).gen = s.gen ∧ (deliver r s).seeded = s.seeded ∧ (deliver r s).rsp = none ∧
      (deliver r s).host = s.host ∧ (deliver r s).delivered = s.delivered ++ [r] ∧
      (deliver r s).resets = s.resets :=
  ⟨rfl, rfl, rfl, rfl, rfl, rfl⟩

/-- What an accepted word leaves is what the atomic step of R61 says, with its response on the port. -/
theorem acceptedState_eq_transaction (w : PortWord) (s : State) :
    (acceptedState w s).gen = (transaction w s.gen s.seeded).1 ∧
      (acceptedState w s).seeded = (transaction w s.gen s.seeded).2.1 ∧
      (acceptedState w s).rsp = some (transaction w s.gen s.seeded).2.2 := by
  unfold acceptedState transaction
  cases decode w with
  | error e => exact ⟨rfl, rfl, rfl⟩
  | ok i => cases h : s.seeded <;> cases i <;> simp [outcomeState, requireSeeded, h]

/-- An accepted word touches nothing that belongs to the host or counts resets. -/
theorem acceptedState_frame (w : PortWord) (s : State) :
    (acceptedState w s).host = s.host ∧ (acceptedState w s).delivered = s.delivered ∧
      (acceptedState w s).resets = s.resets := by
  unfold acceptedState
  cases decode w with
  | error e => exact ⟨rfl, rfl, rfl⟩
  | ok i => exact outcomeState_frame s i

/-- One step of a run. -/
theorem run_of_step {s t : State} (n : Nat) (h : step s = .next t) :
    Sys2Proof.core.run (n + 1) s = Sys2Proof.core.run n t := by
  have e : Sys2Proof.core.step s = .next t := h
  simp only [Host.Core.run, e]

end Sys2Proof.Machine
end

