-- ==== Sys2Proof/Tests/Slice0.lean ====
section
/-!
SUPPORT. The model's own tests: expected values are those of `spec/95_test_vectors.md` (section in each comment), or a
rule's own example. Then, for each statement of `Obligations.lean` that has hypotheses, a witness that meets them.
-/

namespace Sys2Proof.Machine.Tests

/-! ### Well-formedness: an ill-formed term for each check -/

theorem test_seed_number_too_large : AsmLine.wellFormed (.seed (2 ^ 32)) = false := by decide

theorem test_advance_number_too_large : AsmLine.wellFormed (.advance (2 ^ 64)) = false := by decide

theorem test_raw_number_too_large : AsmLine.wellFormed (.raw (2 ^ 72)) = false := by decide

/-- An `Instr` has no ill-formed term: the largest operands are legal (R64). -/
theorem test_largest_operands_are_legal :
    Instr.wellFormed (.seed 0xFFFFFFFF#32) = true ∧ Instr.wellFormed (.advance 0xFFFFFFFFFFFFFFFF#64) = true := by
  decide

/-! ### Decoding (section 9) -/

theorem test_decode_seed_5489 : decode 0x010000000000001571#72 = .ok (.seed 5489#32) := by decide

theorem test_decode_draw : decode 0x020000000000000000#72 = .ok .draw := by decide

theorem test_decode_advance_large : decode 0x030000000100000005#72 = .ok (.advance 4294967301#64) := by decide

theorem test_decode_total : decode 0x040000000000000000#72 = .ok .total := by decide

theorem test_decode_seed_high_bit : decode 0x010000000100000000#72 = .error .seedReservedBits := by decide

theorem test_decode_draw_low_bit : decode 0x020000000000000001#72 = .error .drawReservedBits := by decide

theorem test_decode_total_high_bit : decode 0x048000000000000000#72 = .error .totalReservedBits := by decide

theorem test_decode_unassigned :
    decode 0x000000000000000000#72 = .error (.unassignedOpcode 0x00#8) ∧
    decode 0x050000000000000000#72 = .error (.unassignedOpcode 0x05#8) ∧
    decode 0xFFFFFFFFFFFFFFFFFF#72 = .error (.unassignedOpcode 0xFF#8) := by decide

theorem test_encode_words :
    encode (.seed 0xFFFFFFFF#32) = 0x0100000000FFFFFFFF#72 ∧ encode .draw = 0x020000000000000000#72 ∧
    encode (.advance 1000#64) = 0x0300000000000003E8#72 ∧ encode .total = 0x040000000000000000#72 := by decide

theorem test_decodeTableWord : decodeTableWord 72 0x030000000000000000 = some (.advance 0#64) := by decide

/-! ### The commands -/

/-- The part of an outcome that the tests look at: response word, `CUR`, `DC`, `SEEDED`. -/
def seen : Host.Outcome State Fault Refusal → Option (Option PortWord × Nat × DWord × Bool)
  | .next t => some (rspWord t, t.gen.cur.val, t.gen.dc, t.seeded)
  | .fault _ => none
  | .refused _ => none

/-- The core after `SEED n` and the response taken. -/
def seededWith (n : Word) : State := { State.reset with gen := seedState n, seeded := true }

/-- Section 3, seed 5489: the last word of the array. -/
theorem test_seed_last_word : readMT (seedWords 5489#32) 623 = 0x04C46D8C#32 := by decide +kernel

/-- R91, corner case `seed = 0xFFFFFFFF`: the product is cut to 32 bits. -/
theorem test_seed_product_wraps : readMT (seedWords 0xFFFFFFFF#32) 1 = 0x4FE1DA6D#32 := by decide +kernel

/-- Section 4: step 0, all operands from before the twist. -/
theorem test_twist_word_0 : readMT (twist (seedWords 5489#32)) 0 = 0x9B0AFA27#32 := by decide +kernel

/-- Section 4: step 227, the first to read a word already twisted (section 5: 0xC8EE17F1 would be the wrong reading). -/
theorem test_twist_word_227 : readMT (twist (seedWords 5489#32)) 227 = 0x53E4F8A7#32 := by decide +kernel

/-- Section 4: step 623 reads the new `MT[0]`. -/
theorem test_twist_word_623 : readMT (twist (seedWords 5489#32)) 623 = 0xD1B102B7#32 := by decide +kernel

/-- Section 8, row 5: all four stages. -/
theorem test_temper_stages :
    temperStage1 0x12345678#32 = 0x123610F2#32 ∧ temperStage2 0x123610F2#32 = 0x0B3E40F2#32 ∧
    temperStage3 0x0B3E40F2#32 = 0x2B7E40F2#32 ∧ temper 0x12345678#32 = 0x2B7E4A2D#32 := by decide

/-- Section 11, P1: the first draw after `SEED 5489` twists, and its response word. -/
theorem test_draw_first :
    seen (exec .draw (seededWith 5489#32)) = some (some 0x0000000000D091BB5C#72, 1, 1#64, true) := by decide +kernel

/-- Section 6, row 624: the draw after `ADVANCE 624` is draw number 625, in the second block. -/
theorem test_draw_625 :
    seen (exec .draw { seededWith 5489#32 with gen := drawMany 624 (seedState 5489#32) }) =
      some (some 0x0000000000F914DC58#72, 1, 625#64, true) := by decide +kernel

/-- Section 6, row 624: the block is used up, and `CUR` is 624, not 0. -/
theorem test_advance_624 :
    seen (exec (.advance 624#64) (seededWith 5489#32)) = some (some 0#72, 624, 624#64, true) := by decide +kernel

/-- R131: `ADVANCE 0` leaves a Fresh core Fresh. -/
theorem test_advance_0 :
    seen (exec (.advance 0#64) (seededWith 5489#32)) = some (some 0#72, 624, 0#64, true) := by decide +kernel

/-- Section 7: all 64 bits of the counter, in one response. -/
theorem test_total_above_32_bits :
    seen (exec .total { seededWith 5489#32 with gen := ⟨seedWords 5489#32, 261, 4294967301#64⟩ }) =
      some (some 0x000000000100000005#72, 261, 4294967301#64, true) := by decide +kernel

/-- Section 10: `TOTAL` on an unseeded core. -/
theorem test_total_unseeded : seen (exec .total State.reset) = some (some 0x020000000000000000#72, 0, 0#64, false) := by
  decide

/-- Section 10: a word illegal AND presented to an unseeded core gets `ERR_ILLEGAL`. -/
theorem test_decode_before_seeded_check :
    seen (step (State.reset.withFetchWord 72 0x020000000000000001)) =
      some (some 0x010000000000000000#72, 0, 0#64, false) := by decide

/-! ### The text form (R70) -/

theorem test_assemble_seed :
    assembleLines [['S', 'E', 'E', 'D', ' ', '0', 'x', '1', '5', '7', '1', ' ', ';', 'x'], [], ['D', 'R', 'A', 'W']] =
      .ok [0x010000000000001571#72, 0x020000000000000000#72] := by decide

theorem test_assemble_refuses_large_seed :
    assembleLines [['S', 'E', 'E', 'D', ' ', '4', '2', '9', '4', '9', '6', '7', '2', '9', '6']] =
      .error .outOfRange := by decide

theorem test_assemble_raw :
    assembleLines [['.', 'w', 'o', 'r', 'd', ' ', '0', 'x', 'F', 'F', '0', '0', '0', '0', '0', '0', '0', '0', '0', '0',
      '0', '0', '0', '0', '0', '1']] =
      .ok [0xFF0000000000000001#72] := by decide

/-! ### Witnesses: each statement's hypotheses can be met, clause by clause -/

/-- A seeded core with the cursor at `c`. -/
def coreAt (c : Fin 625) : State :=
  { State.reset with gen := ⟨Vector.replicate 624 1#32, c, 7#64⟩, seeded := true }

/-- A core whose host drives `cs` next. -/
def driven (s : State) (cs : List HostCycle) : State := { s with host := cs }

theorem witness_OperatorsComputeAsDefined : (31 : Nat) ≤ 31 ∧ (0 : Nat) ≤ 31 := by decide

theorem witness_EncodeOfDecodeIsIdentity : decode 0x03FFFFFFFFFFFFFFFF#72 = .ok (.advance 0xFFFFFFFFFFFFFFFF#64) := by
  decide

theorem witness_OpcodeMapSelectsCommands :
    decode 0x0100000000FFFFFFFF#72 = .ok (.seed 0xFFFFFFFF#32) ∧ decode 0x030000000000000000#72 = .ok (.advance 0#64) := by
  decide

/-- One word of each kind of R65, at the edge of its range, and the legal neighbour of each. -/
theorem witness_IllegalWordsAreExactlyThese :
    (decode 0x00FFFFFFFFFFFFFFFF#72 = .error (.unassignedOpcode 0#8) ∧ decode 0x010000000000000000#72 = .ok (.seed 0#32)) ∧
    (decode 0x050000000000000000#72 = .error (.unassignedOpcode 5#8) ∧ decode 0x040000000000000000#72 = .ok .total) ∧
    (decode 0x010000000100000000#72 = .error .seedReservedBits ∧
      decode 0x0100000000FFFFFFFF#72 = .ok (.seed 0xFFFFFFFF#32)) ∧
    (decode 0x020000000000000001#72 = .error .drawReservedBits ∧ decode 0x020000000000000000#72 = .ok .draw) ∧
    decode 0x040000000000000001#72 = .error .totalReservedBits := by decide

/-- A seeded core and an unseeded one, for every statement that asks for either. -/
theorem witness_seeded_and_unseeded : (coreAt 5).seeded = true ∧ State.reset.seeded = false := by decide

theorem witness_AssemblerEmitsTheCommand :
    (2 ^ 32 - 1 < 2 ^ 32 ∧ 2 ^ 64 - 1 < 2 ^ 64 ∧ 2 ^ 72 - 1 < 2 ^ 72) ∧
    (2 ^ 32 ≤ 2 ^ 32 ∧ 2 ^ 64 ≤ 2 ^ 64 ∧ 2 ^ 72 ≤ 2 ^ 72) := by decide

/-- `ParseLineReadsTheGrammar`: a line of the grammar with a hexadecimal number and a comment, and its command. -/
theorem witness_ParseLineReadsTheGrammar :
    LineText ['S', 'E', 'E', 'D', ' ', '0', 'x', '1', 'F', ' ', ';', 'x'] (some (.seed 31)) := by
  refine ⟨['S', 'E', 'E', 'D', ' ', '0', 'x', '1', 'F', ' '], [';', 'x'], [['S', 'E', 'E', 'D'], ['0', 'x', '1', 'F']],
    rfl, .inr ⟨_, rfl⟩, ?_, ['0', 'x', '1', 'F'], rfl,
    .inr ⟨['1', 'F'], rfl, by decide, [1, 15], by decide, by decide, by decide⟩⟩
  exact ⟨[], [' ', '0', 'x', '1', 'F', ' '], rfl, by simp [IsBlank], .inr ⟨' ', _, rfl, by simp [IsBlank]⟩,
    [' '], [' '], rfl, by simp [IsBlank], .inr ⟨' ', [], rfl, by simp [IsBlank]⟩, by simp [SpacedWords, IsBlank]⟩

/-- `TextAssemblesLineByLine`: a line without a command and one with. -/
theorem witness_TextAssemblesLineByLine :
    assembleLines [[';', 'x'], ['T', 'O', 'T', 'A', 'L']] = .ok [encode .total] ∧
    parseLine [';', 'x'] = .ok none ∧ parseLine ['T', 'O', 'T', 'A', 'L'] = .ok (some .total) := by decide

theorem witness_SeedWordsFollowRecurrence : ((1 : Nat) ≤ 1 ∧ 1 ≤ 623) ∧ (1 ≤ 623 ∧ 623 ≤ 623) := by decide

theorem witness_TwistAsFunctionOfTheOldBlock :
    ((0 : Nat) ≤ 226 ∧ 226 ≤ 226) ∧ ((227 : Nat) ≤ 227 ∧ 227 ≤ 622) ∧ ((227 : Nat) ≤ 622 ∧ 622 ≤ 622) := by decide

theorem witness_TwistGroupsOfAtMost227Agree : [227, 227, 170].sum = 624 ∧ ∀ n ∈ [227, 227, 170], n ≤ 227 := by decide

theorem witness_TwistHappensOncePerBlock :
    (coreAt 624).gen.cur.val = 624 ∧ (coreAt 623).gen.cur.val ≠ 624 ∧ (coreAt 0).gen.cur.val ≠ 624 := by decide

theorem witness_DrawStepExtractsAndCounts :
    (coreAt 624).gen.cur.val = 624 ∧ (coreAt 623).gen.cur.val = (623 : Fin 624).val ∧
    (coreAt 0).gen.cur.val = (0 : Fin 624).val := by decide

/-- `AdvanceClosedForm`: both clauses, at the ends of the cursor's range. -/
theorem witness_AdvanceClosedForm :
    (coreAt 1).seeded = true ∧ 1 ≤ (coreAt 1).gen.cur.val ∧ 1 ≤ (coreAt 624).gen.cur.val ∧
    (0#64).toNat = 0 ∧ 1 ≤ (1#64).toNat ∧ 1 ≤ (0xFFFFFFFFFFFFFFFF#64).toNat := by decide

theorem witness_AdvanceEqualsRepeatedDraws :
    (coreAt 1).seeded = true ∧ (0xFFFFFFFFFFFFFFFE#64).toNat + (1#64).toNat < 2 ^ 64 := by decide

theorem witness_ClosedFormIsASkipEngine : 1 ≤ (coreAt 1).gen.cur.val := by decide

/-- Words of every kind but `SEED`, and the draws they make. -/
theorem witness_words_without_seed :
    (∀ w ∈ [encode .draw, encode (.advance 5#64), encode .total, 0#72], isSeedWord w = false) ∧
    [encode .draw, encode (.advance 5#64), encode .total, 0#72].map logicalDraws = [1, 5, 0, 0] := by
  simp only [List.forall_mem_cons, List.not_mem_nil, false_implies, implies_true, and_true]
  decide

/-- `TotalCountsLogicalDraws`: a counter that those draws do not wrap, and one that a single draw wraps. -/
theorem witness_TotalCountsLogicalDraws :
    (7#64).toNat + ([encode .draw, encode (.advance 5#64), encode .total, 0#72].map logicalDraws).sum < 2 ^ 64 ∧
    ¬ (0xFFFFFFFFFFFFFFFF#64).toNat + [1].sum < 2 ^ 64 := by
  rw [witness_words_without_seed.2]
  exact ⟨by simp, by simp⟩

/-- `UnseededIsRaisedExactlyThen`: both sides of the equivalence. -/
theorem witness_UnseededIsRaisedExactlyThen :
    (State.reset.seeded = false ∧ ∀ n : Word, Instr.draw ≠ .seed n) ∧ (coreAt 1).seeded = true := by
  refine ⟨⟨rfl, ?_⟩, rfl⟩
  intro n h
  cases h

/-- `ErrorsChangeOnlyTheResponse`: an illegal word on a seeded core, a `DRAW` on an unseeded one, and the host's next
cycle. -/
theorem witness_ErrorsChangeOnlyTheResponse :
    ((driven (coreAt 5) [presentCycle 0#72, takeCycle]).host = presentCycle 0#72 :: takeCycle :: [] ∧
      (presentCycle 0#72).rst = false ∧ (presentCycle 0#72).cmdValid = true ∧ (coreAt 5).rsp = none ∧
      decode (presentCycle 0#72).cmdWord = .error (.unassignedOpcode 0#8)) ∧
    ((driven State.reset [presentCycle (encode .draw), takeCycle]).host = presentCycle (encode .draw) :: takeCycle :: [] ∧
      decode (presentCycle (encode .draw)).cmdWord = .ok .draw ∧ State.reset.seeded = false ∧ State.reset.rsp = none) ∧
    (takeCycle.rst = false ∧ takeCycle.cmdValid = false ∧ takeCycle.rspReady = true) := by
  decide

/-- `ResetEdgeUnseedsTheCore`: a seeded core, a response on its port, and a host that also presents a command. -/
theorem witness_ResetEdgeUnseedsTheCore :
    (driven (respond .ok 3#64 (coreAt 5)) [⟨true, true, encode .draw, true⟩]).host = ⟨true, true, encode .draw, true⟩ :: [] ∧
    (HostCycle.mk true true (encode .draw) true).rst = true := by decide

/-- `OnlyResetClearsOnlySeedSets`: a step that clears `SEEDED`, and one that sets it. -/
theorem witness_OnlyResetClearsOnlySeedSets :
    (∃ t, step (driven (coreAt 5) [resetCycle]) = .next t ∧ (driven (coreAt 5) [resetCycle]).seeded = true ∧
      t.seeded = false) ∧
    (∃ t, step (driven State.reset [presentCycle (encode (.seed 1#32))]) = .next t ∧
      State.reset.seeded = false ∧ t.seeded = true) :=
  ⟨⟨_, step_of_reset rfl rfl, rfl, rfl⟩, ⟨_, (step_of_command rfl rfl rfl rfl).trans (accept_eq_next _ _), rfl, by decide⟩⟩

/-- `ResponseIsHeldUntilTaken`: not ready with a command presented, and ready. -/
theorem witness_ResponseIsHeldUntilTaken :
    ((driven (respond .ok 3#64 (coreAt 5)) [presentCycle (encode .draw)]).rsp = some ⟨.ok, 3#64⟩ ∧
      (presentCycle (encode .draw)).rst = false ∧ (presentCycle (encode .draw)).rspReady = false) ∧
    (takeCycle.rst = false ∧ takeCycle.rspReady = true) := by decide

/-- `NoChangeWithoutCommandOrReset`: a step that changes the registers. -/
theorem witness_NoChangeWithoutCommandOrReset :
    ∃ t, step (driven (coreAt 5) [presentCycle (encode .draw)]) = .next t ∧
      (t.gen ≠ (driven (coreAt 5) [presentCycle (encode .draw)]).gen ∨
        t.seeded ≠ (driven (coreAt 5) [presentCycle (encode .draw)]).seeded) := by
  refine ⟨_, (step_of_command rfl rfl rfl rfl).trans (accept_eq_next _ _), .inl fun h => ?_⟩
  have hc : (drawNext (coreAt 5).gen).cur = (coreAt 5).gen.cur := congrArg GeneratorState.cur h
  revert hc
  decide

/-- `IdleCoreStaysAsItIs`: a host that is ready for a response but presents nothing, and one whose list has ended. -/
theorem witness_IdleCoreStaysAsItIs :
    ((driven (coreAt 5) [takeCycle]).host = takeCycle :: [] ∧ takeCycle.rst = false ∧ takeCycle.cmdValid = false ∧
      (driven (coreAt 5) [takeCycle]).rsp = none) ∧
    (coreAt 5).host = [] := by decide

/-- `ResponsesComeOnlyFromAcceptedWords`: a step that puts a response on the port, and one that delivers it. -/
theorem witness_ResponsesComeOnlyFromAcceptedWords :
    (∃ t r, step (driven (coreAt 5) [presentCycle 0#72]) = .next t ∧ t.rsp = some r ∧
      (presentCycle 0#72).cmdValid = true ∧ cmdReady (driven (coreAt 5) [presentCycle 0#72]) false = true) ∧
    (∃ t, step (driven (respond .ok 3#64 (coreAt 5)) [takeCycle]) = .next t ∧ t.delivered ≠ (coreAt 5).delivered) :=
  ⟨⟨_, _, (step_of_command rfl rfl rfl rfl).trans (accept_eq_next _ _), rfl, rfl, rfl⟩,
    ⟨_, step_of_delivery rfl rfl rfl rfl, by decide⟩⟩

/-- `StepRunsTheDecodedCommand`: a word that decodes to a command, one that does not, and an opcode-table word. -/
theorem witness_StepRunsTheDecodedCommand :
    ((driven (coreAt 5) [presentCycle (encode .draw)]).host = presentCycle (encode .draw) :: [] ∧
      (presentCycle (encode .draw)).rst = false ∧ (presentCycle (encode .draw)).cmdValid = true ∧
      (coreAt 5).rsp = none ∧ decode (presentCycle (encode .draw)).cmdWord = .ok .draw) ∧
    decode (presentCycle 0#72).cmdWord = .error (.unassignedOpcode 0#8) ∧
    decodeTableWord 72 0x040000000000000000 = some .total := by decide

theorem witness_PortRefinesAtomicTransactions :
    (driven (coreAt 5) (hostProgram [encode .draw, 0#72])).rsp = none ∧
    (driven (coreAt 5) (hostProgram [encode .draw, 0#72])).host = hostProgram [encode .draw, 0#72] := by decide

/-- `CommandsWriteOnlyTheirRegisters`: the edges of the premises on the cursor. -/
theorem witness_CommandsWriteOnlyTheirRegisters :
    (coreAt 623).gen.cur.val ≠ 624 ∧ (coreAt 623).gen.cur.val + (1#64).toNat ≤ 624 ∧
    (coreAt 624).gen.cur.val + (0#64).toNat ≤ 624 ∧ State.reset.seeded = false := by decide

/-- `StepKeepsCursorInRange`: a seeded core at each end of the range, and a step. -/
theorem witness_StepKeepsCursorInRange :
    CursorInv (driven (coreAt 624) [presentCycle (encode .draw)]) ∧ CursorInv (coreAt 1) ∧
    ∃ t, step (driven (coreAt 624) [presentCycle (encode .draw)]) = .next t :=
  ⟨fun _ => by decide, fun _ => by decide, _, (step_of_command rfl rfl rfl rfl).trans (accept_eq_next _ _)⟩

/-- `StepStaysOnTheSequence`: a core that is seeded, and a step. -/
theorem witness_StepStaysOnTheSequence :
    OnSequence (driven (seededWith 5489#32) [presentCycle (encode .draw)]) ∧
    ∃ t, step (driven (seededWith 5489#32) [presentCycle (encode .draw)]) = .next t :=
  ⟨fun _ => ⟨5489#32, 0, rfl⟩, _, (step_of_command rfl rfl rfl rfl).trans (accept_eq_next _ _)⟩

/-- `UnseededContentsAreNeverObserved`: two unseeded cores whose registers differ. -/
theorem witness_UnseededContentsAreNeverObserved :
    LooksSame State.reset { coreAt 5 with seeded := false } ∧ State.reset.gen ≠ (coreAt 5).gen := by
  refine ⟨⟨rfl, rfl, rfl, rfl, fun h => ?_⟩, fun h => ?_⟩
  · cases h
  · have hc : State.reset.gen.cur = (coreAt 5).gen.cur := congrArg GeneratorState.cur h
    revert hc
    decide

end Sys2Proof.Machine.Tests
end

section
/-!
The integer meaning of the word operators of `spec/00_scope.md` R10.
-/

namespace Sys2Proof.Machine

/-- R10: a right shift brings in zeros, so it is floor division. -/
theorem lsr_toNat (a : Word) (k : Nat) : (lsr a k).toNat = a.toNat / 2 ^ k := by
  rw [BitVec.toNat_ushiftRight, Nat.shiftRight_eq_div_pow]

/-- R10: a left shift drops the bits above bit 31, so it is a product modulo 2^32. -/
theorem lsl32_toNat (a : Word) (k : Nat) : (lsl32 a k).toNat = a.toNat * 2 ^ k % 2 ^ 32 := by
  rw [BitVec.toNat_shiftLeft, Nat.shiftLeft_eq]

/-- Settles O1: each operator by the law that gives its bits or its integer. No law needs the bound on the shift. -/
theorem operatorsComputeAsDefined : Obligations.OperatorsComputeAsDefined := by
  refine ⟨fun a b k _ => ⟨?xor, ?and, ?or, ?lsr, ?lsl32, ?mul32, ?add32⟩, ?add64, wrapIndex_val⟩
  case xor => exact fun _ => BitVec.getLsbD_xor
  case and => exact fun _ => BitVec.getLsbD_and
  case or => exact fun _ => BitVec.getLsbD_or
  case lsr => exact lsr_toNat a k
  case lsl32 => exact lsl32_toNat a k
  case mul32 => exact BitVec.toNat_mul a b
  case add32 => exact BitVec.toNat_add a b
  case add64 => exact BitVec.toNat_add

end Sys2Proof.Machine
end

section
/-!
Invariants of the generator registers while the core is seeded (`spec/10_state.md` R22, R24). Only a seed and a draw give
a seeded core new registers, so what holds after every seed and is kept by every draw is kept by every step.
-/

namespace Sys2Proof.Machine

/-- If the core is seeded, its generator registers satisfy `P`; those of an unseeded core may hold anything (R33). -/
def SeededGen (P : GeneratorState → Prop) (s : State) : Prop := s.seeded = true → P s.gen

variable {P : GeneratorState → Prop}

/-- A state with the same registers and the same `SEEDED`. -/
theorem SeededGen.congr {s t : State} (hs : SeededGen P s) (hgen : t.gen = s.gen) (hseeded : t.seeded = s.seeded) :
    SeededGen P t := by
  simpa only [SeededGen, hgen, hseeded] using hs

theorem seededGen_of_unseeded {s : State} (h : s.seeded = false) : SeededGen P s := by
  simp [SeededGen, h]

/-- What a draw keeps, any number of draws keeps. -/
theorem drawMany_keeps (hdraw : ∀ g, P g → P (drawNext g)) (n : Nat) {g : GeneratorState} (hg : P g) :
    P (drawMany n g) :=
  Function.Iterate.rec P hg hdraw n

/-- Behind the check of `SEEDED` only the seeded branch `k` has to be looked at: `Unseeded` changes no register. -/
theorem requireSeeded_keeps {k : State → State} {s : State} (hs : SeededGen P s) (hk : P s.gen → P (k s).gen) :
    SeededGen P (requireSeeded k s) := by
  cases h : s.seeded with
  | false =>
    rw [requireSeeded_of_unseeded s k h]
    exact seededGen_of_unseeded h
  | true =>
    rw [requireSeeded_of_seeded s k h]
    exact fun _ => hk (hs h)

section
variable (hseed : ∀ n, P (seedState n)) (hdraw : ∀ g, P g → P (drawNext g))
include hseed hdraw

/-- Command by command. -/
theorem outcomeState_keeps (i : Instr) {s : State} (hs : SeededGen P s) : SeededGen P (outcomeState i s) := by
  cases i with
  | seed n => exact fun _ => hseed n
  | draw => exact requireSeeded_keeps hs (hdraw s.gen)
  | advance n => exact requireSeeded_keeps hs (drawMany_keeps hdraw n.toNat)
  | total => exact requireSeeded_keeps hs id

theorem acceptedState_keeps (w : PortWord) {s : State} (hs : SeededGen P s) : SeededGen P (acceptedState w s) := by
  unfold acceptedState
  cases decode w with
  | error e => exact hs.congr rfl rfl
  | ok i => exact outcomeState_keeps hseed hdraw i hs

/-- Every step: a reset unseeds the core, an accepted word keeps `P`, and no other edge touches a register. -/
theorem step_keeps_seededGen {s t : State} (hs : SeededGen P s) (ht : step s = .next t) : SeededGen P t := by
  obtain ⟨-, rfl⟩ | ⟨c, rest, -, hcase⟩ := step_cases ht
  · exact hs
  have hhost : SeededGen P (s.setHost rest) := hs.congr rfl rfl
  obtain ⟨-, rfl⟩ | ⟨-, r, -, hport⟩ | ⟨-, -, hport⟩ := hcase
  · exact seededGen_of_unseeded (resetEdge_frame _).1
  · obtain ⟨-, rfl⟩ | ⟨-, rfl⟩ := hport
    · exact hhost
    · exact hhost.congr rfl rfl
  · obtain ⟨-, rfl⟩ | ⟨-, rfl⟩ := hport
    · exact hhost
    · exact acceptedState_keeps hseed hdraw c.cmdWord hhost

end

/-- R24: `CUR` lies in the range it has between commands. -/
def CurInRange (g : GeneratorState) : Prop := 1 ≤ g.cur.val ∧ g.cur.val ≤ 624

theorem cursorInv_iff (s : State) : CursorInv s ↔ SeededGen CurInRange s := Iff.rfl

theorem seedState_curInRange (n : Word) : CurInRange (seedState n) := by
  have hcur : (seedState n).cur.val = 624 := rfl
  simp [CurInRange, hcur]

/-- A draw leaves `CUR` at 1 or above (R121), and `CUR` never exceeds 624. -/
theorem drawNext_curInRange (g : GeneratorState) : CurInRange (drawNext g) :=
  ⟨drawNext_cur_pos g, Nat.le_of_lt_succ (drawNext g).cur.isLt⟩

/-- Settles O43: `SEED` leaves `CUR` in range and so does every draw, hence every step. -/
theorem stepKeepsCursorInRange : Obligations.StepKeepsCursorInRange := by
  intro s t hs ht
  rw [cursorInv_iff] at hs ⊢
  exact step_keeps_seededGen seedState_curInRange (fun g _ => drawNext_curInRange g) hs ht

end Sys2Proof.Machine
end

section
/-!
The decoder of a command word, said once by its two fields (`spec/30_encoding.md` R62 to R65, R72).
-/

namespace Sys2Proof

/-- What the decoder answers for `w`, one constructor per branch, with the condition on the fields of `w`. -/
inductive DecodesTo (w : PortWord) : Except DecodeError Instr → Prop where
  | seed (hop : opField w = 0x01#8) (hres : seedReservedField w = 0#32) : DecodesTo w (.ok (.seed (seedField w)))
  | seedReserved (hop : opField w = 0x01#8) (hres : seedReservedField w ≠ 0#32) :
      DecodesTo w (.error .seedReservedBits)
  | draw (hop : opField w = 0x02#8) (harg : argField w = 0#64) : DecodesTo w (.ok .draw)
  | drawReserved (hop : opField w = 0x02#8) (harg : argField w ≠ 0#64) : DecodesTo w (.error .drawReservedBits)
  | advance (hop : opField w = 0x03#8) : DecodesTo w (.ok (.advance (argField w)))
  | total (hop : opField w = 0x04#8) (harg : argField w = 0#64) : DecodesTo w (.ok .total)
  | totalReserved (hop : opField w = 0x04#8) (harg : argField w ≠ 0#64) : DecodesTo w (.error .totalReservedBits)
  | unassigned (h1 : opField w ≠ 0x01#8) (h2 : opField w ≠ 0x02#8) (h3 : opField w ≠ 0x03#8)
      (h4 : opField w ≠ 0x04#8) : DecodesTo w (.error (.unassignedOpcode (opField w)))

/-- The constructors of `DecodesTo` are all the decoder can do. -/
theorem decodesTo_decode (w : PortWord) : DecodesTo w (decode w) := by
  unfold decode
  split_ifs with h1 hres h2 hdraw h3 h4 htotal
  · exact .seed h1 hres
  · exact .seedReserved h1 hres
  · exact .draw h2 hdraw
  · exact .drawReserved h2 hdraw
  · exact .advance h3
  · exact .total h4 htotal
  · exact .totalReserved h4 htotal
  · exact .unassigned h1 h2 h3 h4

/-- The operand of a `SEED` is `arg[31:0]` (R64). -/
theorem eq_seedField_of_decode {w : PortWord} {n : Word} (h : decode w = .ok (.seed n)) : n = seedField w := by
  have hw := decodesTo_decode w
  rw [h] at hw
  cases hw
  rfl

/-- The operand of an `ADVANCE` is the whole of `arg` (R64). -/
theorem eq_argField_of_decode {w : PortWord} {n : DWord} (h : decode w = .ok (.advance n)) : n = argField w := by
  have hw := decodesTo_decode w
  rw [h] at hw
  cases hw
  rfl

/-- R65 in terms of the fields: an unassigned opcode, or a reserved bit that is set. -/
theorem decode_error_iff (w : PortWord) :
    (∃ e, decode w = .error e) ↔
      (opField w ≠ 0x01#8 ∧ opField w ≠ 0x02#8 ∧ opField w ≠ 0x03#8 ∧ opField w ≠ 0x04#8) ∨
      (opField w = 0x01#8 ∧ seedReservedField w ≠ 0#32) ∨
      (opField w = 0x02#8 ∧ argField w ≠ 0#64) ∨
      (opField w = 0x04#8 ∧ argField w ≠ 0#64) := by
  have hw := decodesTo_decode w
  generalize decode w = d at hw ⊢
  -- In each branch the fields are known, and both sides evaluate.
  cases hw <;> simp [*]

end Sys2Proof
end

section
/-!
The opcode map of `spec/30_encoding.md` R63: each row's mask and match are a test of the opcode and of the reserved bits
of `arg`.
-/

namespace Sys2Proof

/-- A command word is its two fields (R62). -/
theorem commandWord_fields (w : PortWord) : commandWord (opField w) (argField w) = w :=
  BitVec.extractLsb'_append_extractLsb'

/-- The `arg` of a `SEED` is its reserved half and its operand (R64). -/
theorem seedFields_append (w : PortWord) : seedReservedField w ++ seedField w = argField w :=
  BitVec.extractLsb'_append_extractLsb'_eq_extractLsb' rfl

theorem commandWord_inj {op op' : BitVec 8} {arg arg' : DWord} :
    commandWord op arg = commandWord op' arg' ↔ op = op' ∧ arg = arg' := by
  refine ⟨fun h => ⟨?_, ?_⟩, fun ⟨hop, harg⟩ => by rw [hop, harg]⟩
  · simpa only [opField_commandWord] using congrArg opField h
  · simpa only [argField_commandWord] using congrArg argField h

/-- A mask acts on each field by itself. -/
theorem commandWord_and (op op' : BitVec 8) (arg arg' : DWord) :
    commandWord op arg &&& commandWord op' arg' = commandWord (op &&& op') (arg &&& arg') :=
  BitVec.and_append

/-- The mask of `SEED` tests exactly its reserved bits (R64). -/
theorem argField_and_seedMask_eq_zero_iff (w : PortWord) :
    argField w &&& 0xFFFFFFFF00000000#64 = 0#64 ↔ seedReservedField w = 0#32 := by
  have hmask : 0xFFFFFFFF00000000#64 = BitVec.allOnes 32 ++ 0#32 := by decide
  have hzero : 0#64 = 0#32 ++ 0#32 := by decide
  rw [← seedFields_append, hmask, BitVec.and_append, BitVec.and_allOnes, BitVec.and_zero, hzero,
    BitVec.append_left_inj]

/-- A row that asks for the opcode `op` and for zeros in the bits `reserved` of `arg`. -/
def fieldRow (mnemonic : String) (op : BitVec 8) (reserved : DWord) : OpcodeRow :=
  ⟨mnemonic, commandWord 0xFF#8 reserved, commandWord op 0#64⟩

theorem opcodeRows_eq_fieldRows :
    opcodeRows =
      [fieldRow "SEED" 0x01#8 0xFFFFFFFF00000000#64, fieldRow "DRAW" 0x02#8 (BitVec.allOnes 64),
        fieldRow "ADVANCE" 0x03#8 0#64, fieldRow "TOTAL" 0x04#8 (BitVec.allOnes 64)] := by
  decide

theorem fieldRow_hits (mnemonic : String) (op : BitVec 8) (reserved : DWord) (w : PortWord) :
    (fieldRow mnemonic op reserved).hits w = decide (opField w = op ∧ argField w &&& reserved = 0#64) := by
  have hop : opField w &&& 0xFF#8 = opField w := BitVec.and_allOnes
  have hmasked : w &&& commandWord 0xFF#8 reserved = commandWord (opField w) (argField w &&& reserved) := by
    rw [← hop, ← commandWord_and, commandWord_fields]
  rw [Bool.eq_iff_iff, decide_eq_true_iff, ← commandWord_inj, ← hmasked]
  exact beq_iff_eq

/-- Which rows hit a word, by its fields. -/
theorem mnemonics_of_hits (w : PortWord) :
    (opcodeRows.filter (fun r => r.hits w)).map OpcodeRow.mnemonic =
      (if opField w = 0x01#8 ∧ seedReservedField w = 0#32 then ["SEED"] else []) ++
      (if opField w = 0x02#8 ∧ argField w = 0#64 then ["DRAW"] else []) ++
      (if opField w = 0x03#8 then ["ADVANCE"] else []) ++
      (if opField w = 0x04#8 ∧ argField w = 0#64 then ["TOTAL"] else []) := by
  simp only [opcodeRows_eq_fieldRows, List.filter_cons, fieldRow_hits, argField_and_seedMask_eq_zero_iff,
    BitVec.and_allOnes, BitVec.and_zero, and_true, decide_eq_true_iff, List.filter_nil]
  split_ifs <;> simp [fieldRow]

/-- Settles O4: the rows test the fields that the decoder branches on, so branch by branch the row that hits is the one
of the decoded command. -/
theorem opcodeMapSelectsCommands : Obligations.OpcodeMapSelectsCommands := by
  intro w
  refine ⟨?rows, fun n h => ?seed, fun n h => ?advance⟩
  case rows =>
    rw [mnemonics_of_hits]
    have hw := decodesTo_decode w
    generalize decode w = d at hw ⊢
    cases hw <;> simp [*, mnemonicOf]
  case seed => rw [eq_seedField_of_decode h, seedField_toNat]
  case advance => rw [eq_argField_of_decode h, argField_toNat]

end Sys2Proof
end

section
/-!
The responses of `spec/30_encoding.md` R65 to R68: of an illegal word, as a word of the port, and of each command.
-/

namespace Sys2Proof.Machine

/-! ### Illegal words -/

/-- An illegal word changes nothing but the response port, whatever `SEEDED` is (R154). -/
theorem accept_of_illegal {w : PortWord} {e : DecodeError} (h : decode w = .error e) (s : State) :
    accept w s = .next (raiseException .illegalCommand s) := by
  simp only [accept, h]

/-- Settles O5: the four kinds are the error branches of the decoder, with each field as arithmetic on the word. -/
theorem illegalWordsAreExactlyThese : Obligations.IllegalWordsAreExactlyThese := by
  intro w
  refine ⟨?kinds, fun e s h => accept_of_illegal h s⟩
  case kinds =>
    rw [decode_error_iff]
    simp only [ne_eq, opField_eq_iff, argField_eq_zero_iff, seedReservedField_eq_zero_iff, BitVec.toNat_ofNat]
    omega

/-! ### The response word -/

/-- A response word is laid out as a command word is: 8 bits above 64 (R62, R66). -/
theorem responseWord_toNat (r : Response) :
    (responseWord r).toNat = (statusCode r.status).toNat * 2 ^ 64 + r.data.toNat :=
  commandWord_toNat (statusCode r.status) r.data

/-- Settles O7: quotient and remainder of the word by 2^64, as the data is below 2^64. -/
theorem responseWordHasItsFields : Obligations.ResponseWordHasItsFields := by
  refine ⟨fun r => ?_, rfl, rfl, rfl⟩
  have hdata := r.data.isLt
  rw [responseWord_toNat]
  omega

/-! ### The response of each command -/

/-- The data of the `OK` response of a command (the table of R68), from the registers before it. -/
def okData (i : Instr) (g : GeneratorState) : DWord :=
  match i with
  | .seed _ => 0#64
  | .draw => zext64 (drawStep g).1
  | .advance _ => 0#64
  | .total => g.dc

theorem outcomeState_seed_rsp (n : Word) (s : State) : (outcomeState (.seed n) s).rsp = some ⟨.ok, 0#64⟩ := rfl

/-- On a seeded core every command answers `OK` with its data. -/
theorem outcomeState_rsp_of_seeded (i : Instr) {s : State} (h : s.seeded = true) :
    (outcomeState i s).rsp = some ⟨.ok, okData i s.gen⟩ := by
  cases i with
  | seed n => rfl
  | draw | advance n | total => simp [outcomeState, requireSeeded_of_seeded, h, okData]

theorem zext64_toNat (t : Word) : (zext64 t).toNat = t.toNat :=
  BitVec.toNat_setWidth_of_le (by decide)

/-- Zero extension leaves `data[63:32] = 0` (R68). -/
theorem zext64_highHalf (t : Word) : (zext64 t).extractLsb' 32 32 = 0#32 := by
  apply BitVec.eq_of_toNat_eq
  rw [BitVec.extractLsb'_toNat, zext64_toNat, Nat.shiftRight_eq_div_pow, Nat.div_eq_of_lt t.isLt]
  rfl

/-- Settles O8: the data of each command is its `okData`, and `DRAW` zero-extends its value. -/
theorem responseDataByCommand : Obligations.ResponseDataByCommand := by
  intro s
  refine ⟨fun n => ⟨_, exec_eq_next _ s, outcomeState_seed_rsp n s⟩, fun h => ⟨?draw, fun n => ?advance, ?total⟩,
    fun e => raiseException_rsp s e⟩
  case draw =>
    exact ⟨_, _, exec_eq_next _ s, outcomeState_rsp_of_seeded .draw h, zext64_toNat _, zext64_highHalf _⟩
  case advance => exact ⟨_, exec_eq_next _ s, outcomeState_rsp_of_seeded (.advance n) h⟩
  case total => exact ⟨_, exec_eq_next _ s, outcomeState_rsp_of_seeded .total h⟩

end Sys2Proof.Machine
end

section
/-!
Seeding (`spec/40_seed.md` R90 to R92): the words of the seeded block, and the command `SEED` with its word.
-/

namespace Sys2Proof

/-! ### The word of a `SEED` -/

/-- The halves of an `arg` zero-extended from 32 bits are zeros and the operand (R64). -/
theorem seedFields_commandWord_zeroExtend (op : BitVec 8) (n : Word) :
    seedReservedField (commandWord op (n.zeroExtend 64)) = 0#32 ∧
      seedField (commandWord op (n.zeroExtend 64)) = n := by
  have hn := n.isLt
  have hword : (commandWord op (n.zeroExtend 64)).toNat = op.toNat * 2 ^ 64 + n.toNat := by
    rw [commandWord_toNat, BitVec.toNat_setWidth_of_le (by decide)]
  constructor
  · rw [seedReservedField_eq_zero_iff, hword]
    omega
  · apply BitVec.eq_of_toNat_eq
    rw [seedField_toNat, hword]
    omega

/-- The word of a `SEED` has opcode 1 and no reserved bit set, so it takes the first branch of the decoder. -/
theorem decode_seedWord (n : Word) : decode (commandWord 0x01#8 (n.zeroExtend 64)) = .ok (.seed n) := by
  obtain ⟨hreserved, hoperand⟩ := seedFields_commandWord_zeroExtend 0x01#8 n
  rw [decode, if_pos (opField_commandWord _ _), if_pos hreserved, hoperand]

end Sys2Proof

namespace Sys2Proof.Machine

/-! ### The words of the block -/

/-- A read of the block is a read of the run of the recurrence that it is made of. -/
theorem readMT_seedWords (s : Word) {j : Nat} (hj : j < 624) :
    readMT (seedWords s) (wrapIndex j) = (seedFrom s 1 624)[j]'(by rwa [length_seedFrom]) := by
  simp only [readMT_eq_getElem, wrapIndex_val_of_lt hj]
  rfl

theorem readMT_seedWords_zero (s : Word) : readMT (seedWords s) 0 = s :=
  (readMT_seedWords s (j := 0) (by decide)).trans (getElem_seedFrom_zero s 1 624 _)

/-- Each later word is the next of the one before it, with its own index added. -/
theorem readMT_seedWords_succ (s : Word) {j : Nat} (hj : j + 1 < 624) :
    readMT (seedWords s) (wrapIndex (j + 1)) = seedNext (readMT (seedWords s) (wrapIndex j)) (j + 1) := by
  rw [readMT_seedWords s hj, readMT_seedWords s (Nat.lt_of_succ_lt hj), getElem_seedFrom_succ, Nat.add_comm 1 j]

/-- Settles O10: the block is the run of the recurrence that begins with the seed, read word by word. -/
theorem seedWordsFollowRecurrence : Obligations.SeedWordsFollowRecurrence := by
  refine fun s => ⟨readMT_seedWords_zero s, fun i hlo hhi => ?_⟩
  obtain ⟨j, rfl⟩ := Nat.exists_eq_add_of_le' hlo
  rw [Nat.add_sub_cancel]
  exact readMT_seedWords_succ s (Nat.lt_succ_of_le hhi)

/-! ### The command -/

/-- `SEED` makes no check of `SEEDED` (R92): its next state is the Fresh state and the response, in one update. -/
theorem outcomeState_seed (n : Word) (s : State) :
    outcomeState (.seed n) s = { s with gen := seedState n, seeded := true, rsp := some ⟨.ok, 0#64⟩ } := rfl

/-- Settles O11: the word takes the decoder's branch of `SEED`, and the command's next state is a single update. -/
theorem seedReplacesTheGenerator : Obligations.SeedReplacesTheGenerator := by
  refine fun n s => ⟨decode_seedWord n, ?_⟩
  rw [exec_eq_next, outcomeState_seed]
  rfl

end Sys2Proof.Machine
end

section
/-!
The twist (`spec/41_twist.md` R100 to R102): the new block is the one solution of the three lines of R102, so it is linear
in the old one; and the loop in place computes it.
-/

namespace Sys2Proof.Machine

/-! ### The three lines of R102 -/

/-- `new` solves the equations of R102 for `old`, word by word: the second operand of step 623 is the new word 0, and
the third operand is the new word `i - 227` from step 227 on. -/
def TwistsTo (old new : Vector Word 624) : Prop :=
  ∀ i : Fin 624, readMT new i =
    twistNext (readMT old i)
      (if i.val = 623 then readMT new (wrapIndex 0) else readMT old (wrapIndex (i.val + 1)))
      (if i.val ≤ 226 then readMT old (wrapIndex (i.val + 397)) else readMT new (wrapIndex (i.val - 227)))

theorem twistsTo_twist (old : Vector Word 624) : TwistsTo old (twist old) := readMT_twist old

variable {old new : Vector Word 624}

/-- First line of R102: all three operands are old words. -/
theorem TwistsTo.low (h : TwistsTo old new) {i : Nat} (hi : i ≤ 226) :
    readMT new (wrapIndex i) =
      twistNext (readMT old (wrapIndex i)) (readMT old (wrapIndex (i + 1))) (readMT old (wrapIndex (i + 397))) := by
  have hval : (wrapIndex i).val = i := wrapIndex_val_of_lt (by omega)
  rw [h (wrapIndex i), hval, if_neg (by omega), if_pos hi]

/-- Second line of R102: the third operand is a new word. -/
theorem TwistsTo.middle (h : TwistsTo old new) {i : Nat} (hlo : 227 ≤ i) (hhi : i ≤ 622) :
    readMT new (wrapIndex i) =
      twistNext (readMT old (wrapIndex i)) (readMT old (wrapIndex (i + 1))) (readMT new (wrapIndex (i - 227))) := by
  have hval : (wrapIndex i).val = i := wrapIndex_val_of_lt (by omega)
  rw [h (wrapIndex i), hval, if_neg (by omega), if_neg (by omega)]

/-- Third line of R102: the second operand too is a new word. -/
theorem TwistsTo.last (h : TwistsTo old new) :
    readMT new 623 = twistNext (readMT old 623) (readMT new 0) (readMT new 396) :=
  h 623

/-- The equations have one solution: each new word needs only new words of smaller index (R102). -/
theorem TwistsTo.eq_twist (h : TwistsTo old new) : new = twist old := by
  refine mt_ext fun i => ?_
  induction i using WellFoundedLT.induction with
  | _ i ih =>
    have hsmaller {j : Nat} (hj : j < i.val) : readMT new (wrapIndex j) = readMT (twist old) (wrapIndex j) :=
      ih (wrapIndex j) (Fin.lt_def.2 ((Nat.mod_le j 624).trans_lt hj))
    rw [h, twistsTo_twist old]
    congr 1
    · exact if_ctx_congr .rfl (fun _ => hsmaller (by omega)) (fun _ => rfl)
    · exact if_ctx_congr .rfl (fun _ => rfl) (fun _ => hsmaller (by omega))

/-! ### Linearity -/

/-- Bit by bit `y` is a bit of the first word or the bit of the second: the two masks are complements. -/
theorem twistY_xor (a a' b b' : Word) : twistY (a ^^^ a') (b ^^^ b') = twistY a b ^^^ twistY a' b' := by
  have hmask : lowerMask = ~~~upperMask := rfl
  unfold twistY
  rw [hmask]
  generalize upperMask = u
  ext i hi
  cases h : u[i] <;> simp [h]

/-- The XOR of two odd words is even, and the matrix constant added for both cancels. -/
theorem ite_matrixA_xor (p q : Bool) :
    (if (p ^^ q) then matrixA else 0#32) = (if p then matrixA else 0#32) ^^^ (if q then matrixA else 0#32) := by
  cases p <;> cases q <;> decide

theorem twistG_xor (a a' b b' : Word) : twistG (a ^^^ a') (b ^^^ b') = twistG a b ^^^ twistG a' b' := by
  simp only [twistG, twistY_xor, BitVec.getLsbD_xor, ite_matrixA_xor, lsr, BitVec.ushiftRight_xor_distrib]
  ac_rfl

theorem twistNext_xor (a a' b b' c c' : Word) :
    twistNext (a ^^^ a') (b ^^^ b') (c ^^^ c') = twistNext a b c ^^^ twistNext a' b' c' := by
  simp only [twistNext, twistG_xor]
  ac_rfl

@[simp] theorem readMT_xorBlocks (a b : Vector Word 624) (i : Fin 624) :
    readMT (xorBlocks a b) i = readMT a i ^^^ readMT b i := by
  simp [readMT_eq_getElem, xorBlocks]

theorem xorBlocks_self (a : Vector Word 624) : xorBlocks a a = Vector.replicate 624 0#32 :=
  mt_ext fun i => by simp [readMT_eq_getElem, xorBlocks]

/-- Solutions add up, as each equation is linear. -/
theorem TwistsTo.xor {old' new' : Vector Word 624} (h : TwistsTo old new) (h' : TwistsTo old' new') :
    TwistsTo (xorBlocks old old') (xorBlocks new new') := by
  intro i
  simp only [readMT_xorBlocks]
  rw [h i, h' i, ← twistNext_xor]
  congr 1 <;> split <;> rfl

theorem twist_xorBlocks (a b : Vector Word 624) : twist (xorBlocks a b) = xorBlocks (twist a) (twist b) :=
  ((twistsTo_twist a).xor (twistsTo_twist b)).eq_twist.symm

/-- The zero block is any block XOR itself, before the twist and after it. -/
theorem twist_zero : twist (Vector.replicate 624 0#32) = Vector.replicate 624 0#32 := by
  rw [← xorBlocks_self (Vector.replicate 624 0#32), twist_xorBlocks, xorBlocks_self, xorBlocks_self]

/-- Settles O14: the twist solves the three lines of R102, and what solves them is linear in the old block. -/
theorem twistAsFunctionOfTheOldBlock : Obligations.TwistAsFunctionOfTheOldBlock := by
  refine ⟨fun old => ?lines, fun _ _ => rfl, twist_xorBlocks, twist_zero⟩
  have h := twistsTo_twist old
  exact ⟨fun i => h.low, fun i => h.middle, h.last⟩

/-! ### The loop in place -/

/-- The array when the loop reaches step `n`: new words below `n`, old words from `n` on. -/
def partlyTwisted (old : Vector Word 624) (n : Nat) : Vector Word 624 :=
  Vector.ofFn fun i => if i.val < n then readMT (twist old) i else readMT old i

theorem readMT_partlyTwisted (old : Vector Word 624) (n : Nat) (i : Fin 624) :
    readMT (partlyTwisted old n) i = if i.val < n then readMT (twist old) i else readMT old i := by
  simp [readMT_eq_getElem, partlyTwisted]

theorem partlyTwisted_start (old : Vector Word 624) : partlyTwisted old 0 = old :=
  mt_ext fun i => by rw [readMT_partlyTwisted, if_neg (Nat.not_lt_zero _)]

theorem partlyTwisted_end (old : Vector Word 624) : partlyTwisted old 624 = twist old :=
  mt_ext fun i => by rw [readMT_partlyTwisted, if_pos i.isLt]

/-- What step `n` writes is the new word `n`: of its operands exactly those of R101 are new by then. -/
theorem twistNext_partlyTwisted (old : Vector Word 624) {n : Nat} (hn : n < 624) :
    twistNext (readMT (partlyTwisted old n) (wrapIndex n)) (readMT (partlyTwisted old n) (wrapIndex (n + 1)))
      (readMT (partlyTwisted old n) (wrapIndex (n + shiftM))) = readMT (twist old) (wrapIndex n) := by
  have hval : (wrapIndex n).val = n := wrapIndex_val_of_lt hn
  rw [twistsTo_twist old (wrapIndex n)]
  simp only [readMT_partlyTwisted, hval, lt_irrefl, if_false]
  congr 1
  · by_cases hlast : n = 623
    · subst hlast
      rfl
    · have hnext : (wrapIndex (n + 1)).val = n + 1 := wrapIndex_val_of_lt (by omega)
      rw [hnext, if_neg (by omega), if_neg hlast]
  · by_cases hlow : n ≤ 226
    · have hfar : (wrapIndex (n + 397)).val = n + 397 := wrapIndex_val_of_lt (by omega)
      rw [hfar, if_neg (by omega), if_pos hlow]
    · have hwrap : wrapIndex (n + 397) = wrapIndex (n - 227) := Fin.ext (by simp only [wrapIndex_val]; omega)
      have hback : (wrapIndex (n - 227)).val = n - 227 := wrapIndex_val_of_lt (by omega)
      rw [hwrap, hback, if_pos (by omega), if_neg hlow]

/-- One step of the loop moves the border between new and old words by one. -/
theorem twistStepAt_partlyTwisted (old : Vector Word 624) {n : Nat} (hn : n < 624) :
    twistStepAt n (partlyTwisted old n) = partlyTwisted old (n + 1) := by
  have hval : (wrapIndex n).val = n := wrapIndex_val_of_lt hn
  unfold twistStepAt
  rw [twistNext_partlyTwisted old hn]
  refine mt_ext fun i => ?_
  by_cases hi : wrapIndex n = i
  · subst hi
    rw [readMT_writeMT_same, readMT_partlyTwisted, if_pos (by omega)]
  · have hne : i.val ≠ n := fun e => hi (Fin.ext (hval.trans e.symm))
    rw [readMT_writeMT_of_ne hi, readMT_partlyTwisted, readMT_partlyTwisted]
    exact if_congr (by omega) rfl rfl

/-- `n` steps from step `lo` on. -/
theorem forUp_twistStepAt_partlyTwisted (old : Vector Word 624) (lo n : Nat) (h : lo + n ≤ 624) :
    forUp twistStepAt lo n (partlyTwisted old lo) = partlyTwisted old (lo + n) := by
  induction n generalizing lo with
  | zero => rfl
  | succ n ih =>
    rw [forUp, twistStepAt_partlyTwisted old (by omega), ih (lo + 1) (by omega), Nat.add_right_comm, Nat.add_assoc]

/-- The loop of R100 is the twist that the machine uses. -/
theorem twistInPlace_eq_twist (mt : Vector Word 624) : twistInPlace mt = twist mt := by
  have h := forUp_twistStepAt_partlyTwisted mt 0 624 (by decide)
  rwa [partlyTwisted_start, partlyTwisted_end] at h

/-- Settles O13: the step by its definition, and the loop by its invariant `partlyTwisted`. -/
theorem twistIsTheLoopInPlace : Obligations.TwistIsTheLoopInPlace := by
  refine ⟨fun i mt => ?step, fun g => ?loop⟩
  case step =>
    intro y
    rw [BitVec.xor_assoc]
    rfl
  case loop =>
    rw [twistState, ← twistInPlace_eq_twist]
    rfl

end Sys2Proof.Machine
end

section
/-!
When a twist happens (`spec/41_twist.md` R103): the cursor and the block after any number of draws.
-/

namespace Sys2Proof.Machine

/-- `n` draws from a cursor of at least 1: the cursor runs through 1..624 again and again (R132). -/
theorem drawMany_cur {g : GeneratorState} (hg : 1 ≤ g.cur.val) (n : Nat) :
    (drawMany n g).cur.val = (g.cur.val + n - 1) % 624 + 1 := by
  induction n with
  | zero =>
    have hlt := g.cur.isLt
    rw [drawMany_zero]
    omega
  | succ n ih =>
    rw [drawMany_succ', drawNext_cur, ih]
    split <;> omega

/-- `n` draws twist the block once for each time the cursor passes 624 (R132). -/
theorem drawMany_mt {g : GeneratorState} (hg : 1 ≤ g.cur.val) (n : Nat) :
    (drawMany n g).mt = Nat.iterate twist (advanceTwists g.cur.val n) g.mt := by
  unfold advanceTwists
  induction n with
  | zero =>
    have hlt := g.cur.isLt
    rw [drawMany_zero, Nat.add_zero, Nat.div_eq_of_lt (by omega), Function.iterate_zero_apply]
  | succ n ih =>
    rw [drawMany_succ', drawNext_mt, drawMany_cur hg, ih]
    split
    · rw [← Function.iterate_succ_apply' twist]
      congr 1
      omega
    · congr 1
      omega

/-- After a `SEED` (R91: `CUR = 624`) the cursor is back at 624 after every 624 draws. -/
theorem drawMany_seedState_cur (seed : Word) (k : Nat) :
    (drawMany k (seedState seed)).cur.val = (624 + k - 1) % 624 + 1 :=
  drawMany_cur (seedState_curInRange seed).1 k

/-- After a `SEED` the first draw twists, and then every 624th after it. -/
theorem drawMany_seedState_mt (seed : Word) (k : Nat) :
    (drawMany k (seedState seed)).mt = blockAfter seed (advanceTwists 624 k) :=
  drawMany_mt (seedState_curInRange seed).1 k

/-- A command whose seeded branch `k` keeps the generator registers keeps them on an unseeded core too. -/
theorem requireSeeded_gen_eq {k : State → State} {s : State} (hk : (k s).gen = s.gen) :
    (requireSeeded k s).gen = s.gen := by
  cases h : s.seeded with
  | false => rw [requireSeeded_of_unseeded s k h, raiseException_gen]
  | true => rw [requireSeeded_of_seeded s k h, hk]

theorem outcomeState_total_gen (s : State) : (outcomeState .total s).gen = s.gen :=
  requireSeeded_gen_eq (totalSeeded_gen s)

/-- `ADVANCE 0` draws nothing (R131). -/
theorem outcomeState_advance_zero_gen (s : State) : (outcomeState (.advance 0#64) s).gen = s.gen :=
  requireSeeded_gen_eq (advanceSeeded_gen s 0#64)

/-- Settles O16: the cursor and the number of twists in closed form, the draw's own case split on `CUR`, and the next
state of each of the other commands. -/
theorem twistHappensOncePerBlock : Obligations.TwistHappensOncePerBlock := by
  refine ⟨fun seed k => ⟨?cursor, ?block⟩, fun g => ⟨fun h => ?used, fun h => ?active⟩,
    fun s => ⟨fun seed => ?seed, ?total, ?advance⟩⟩
  case cursor =>
    rw [drawMany_seedState_cur]
    omega
  case block =>
    rw [drawMany_seedState_mt, advanceTwists]
    congr 1
    split <;> omega
  case used => rw [drawNext_mt, if_pos h]
  case active => rw [drawNext_mt, if_neg h]
  case seed => exact ⟨_, exec_eq_next _ s, rfl⟩
  case total => exact ⟨_, exec_eq_next _ s, congrArg (·.mt) (outcomeState_total_gen s)⟩
  case advance => exact ⟨_, exec_eq_next _ s, congrArg (·.mt) (outcomeState_advance_zero_gen s)⟩

end Sys2Proof.Machine
end

section
/-!
Tempering and the draw (`spec/42_draw_temper.md` R115 to R123): the draw step, the command `DRAW`, and the word that each
draw after a `SEED` returns.
-/

namespace Sys2Proof.Machine

/-! ### The draw step -/

/-- Settles O17: each stage of `temper` is defined on the result of the stage before it, with the constants of R6. -/
theorem temperIsFourStages : Obligations.TemperIsFourStages := fun _ => rfl

/-- The extraction of R121 in one update: the block stays as it is. -/
theorem extractAt_eq (i : Fin 624) (g : GeneratorState) :
    extractAt i g = (temper (readMT g.mt i), ⟨g.mt, i.succ, add64 g.dc 1#64⟩) := rfl

/-- Settles O19: the two branches of the draw step, each followed by the one extraction. -/
theorem drawStepExtractsAndCounts : Obligations.DrawStepExtractsAndCounts := by
  refine fun g => ⟨fun hused => ?used, fun i hi => ?active⟩
  case used =>
    rw [drawStep_of_used hused, extractAt_eq]
    rfl
  case active =>
    have hactive : g.cur.val ≠ 624 := hi ▸ i.isLt.ne
    have hindex : (⟨g.cur.val, by omega⟩ : Fin 624) = i := Fin.ext hi
    rw [drawStep_of_active hactive, hindex, extractAt_eq]

/-- Both branches at once: the word extracted is read from the block after the draw, at the cursor before it, where 624
stands for index 0. -/
theorem drawStep_value (g : GeneratorState) :
    (drawStep g).1 = temper (readMT (drawNext g).mt (wrapIndex g.cur.val)) := by
  by_cases hused : g.cur.val = 624
  · have hindex : wrapIndex 624 = 0 := rfl
    rw [drawStep_of_used hused, extractAt_value, twistState_mt, drawNext_mt, if_pos hused, hused, hindex]
  · have hindex : (⟨g.cur.val, by omega⟩ : Fin 624) = wrapIndex g.cur.val := (wrapIndex_fin _).symm
    rw [drawStep_of_active hused, extractAt_value, drawNext_mt, if_neg hused, hindex]

/-! ### The command -/

theorem decode_drawWord : decode (commandWord 0x02#8 0#64) = .ok .draw := by decide

theorem exec_draw_of_seeded {s : State} (h : s.seeded = true) : exec .draw s = .next (drawSeeded s) := by
  rw [exec_eq_next, outcomeState, requireSeeded_of_seeded s drawSeeded h]

theorem exec_draw_of_unseeded {s : State} (h : s.seeded = false) :
    exec .draw s = .next (raiseException .unseeded s) := by
  rw [exec_eq_next, outcomeState, requireSeeded_of_unseeded s drawSeeded h]

/-- Settles O20: the check of `SEEDED` selects one of two next states, and each is a single update. -/
theorem drawReturnsTheTemperedWord : Obligations.DrawReturnsTheTemperedWord :=
  ⟨decode_drawWord, fun _ => ⟨exec_draw_of_seeded, exec_draw_of_unseeded⟩⟩

/-! ### A sequence of `DRAW` commands -/

theorem iterate_drawSeeded_gen (n : Nat) (s : State) : (drawSeeded^[n] s).gen = drawMany n s.gen :=
  have hcommute : Function.Semiconj State.gen drawSeeded drawNext := drawSeeded_gen
  hcommute.iterate_right n s

theorem iterate_drawSeeded_seeded (n : Nat) {s : State} (h : s.seeded = true) : (drawSeeded^[n] s).seeded = true :=
  Function.Iterate.rec (fun t : State => t.seeded = true) h (fun t ht => (drawSeeded_seeded t).trans ht) n

/-- On a seeded core every `DRAW` of the sequence takes its seeded branch. -/
theorem drawCommands_of_seeded (n : Nat) {s : State} (h : s.seeded = true) :
    drawCommands n s = .next (drawSeeded^[n] s) := by
  induction n generalizing s with
  | zero => rfl
  | succ n ih =>
    have hnext : (drawSeeded s).seeded = true := (drawSeeded_seeded s).trans h
    rw [drawCommands, exec_draw_of_seeded h, Function.iterate_succ_apply]
    exact ih hnext

/-- Draw number `k + 1` (R123): the block has been twisted `floor(k / 624) + 1` times, and the cursor before the draw is
`k` up to multiples of 624. -/
theorem drawValue_eq (seed : Word) (k : Nat) :
    drawValue seed k = temper (readMT (blockAfter seed (k / 624 + 1)) (wrapIndex k)) := by
  have hblock : (drawNext (drawMany k (seedState seed))).mt = blockAfter seed (k / 624 + 1) := by
    rw [← drawMany_succ', drawMany_seedState_mt, advanceTwists]
    congr 1
    omega
  have hcursor : wrapIndex (drawMany k (seedState seed)).cur.val = wrapIndex k := by
    refine Fin.ext ?_
    rw [wrapIndex_val, wrapIndex_val, drawMany_seedState_cur]
    omega
  rw [drawValue, drawStep_value, hblock, hcursor]

/-- Settles O21: after the `SEED` the core is seeded, so all the `DRAW` commands complete, and the last one responds with
`drawValue seed k`. -/
theorem drawNumberReadsItsBlock : Obligations.DrawNumberReadsItsBlock := by
  intro s seed k
  have hfresh : (outcomeState (.seed seed) s).seeded = true := rfl
  refine ⟨_, _, _, exec_eq_next (.seed seed) s, drawCommands_of_seeded k hfresh,
    exec_draw_of_seeded (iterate_drawSeeded_seeded k hfresh), ?_⟩
  rw [drawSeeded_rsp, iterate_drawSeeded_gen, ← drawValue_eq]
  rfl

end Sys2Proof.Machine
end

section
/-!
Skip-ahead (`spec/43_advance.md` R130 to R133): the command `ADVANCE` as draws with their results discarded, the registers
after it in closed form, and its agreement with a sequence of `DRAW` commands.
-/

namespace Sys2Proof.Machine

/-! ### The command -/

/-- The word of an `ADVANCE` takes the third branch of the decoder, which tests no reserved bit. -/
theorem decode_advanceWord (count : DWord) : decode (commandWord 0x03#8 count) = .ok (.advance count) := by
  rw [decode, opField_commandWord, argField_commandWord, if_neg (by decide), if_neg (by decide), if_pos rfl]

theorem exec_advance_of_seeded (count : DWord) {s : State} (h : s.seeded = true) :
    exec (.advance count) s = .next (advanceSeeded count s) := by
  rw [exec_eq_next, outcomeState, requireSeeded_of_seeded s _ h]

theorem exec_advance_of_unseeded (count : DWord) {s : State} (h : s.seeded = false) :
    exec (.advance count) s = .next (raiseException .unseeded s) := by
  rw [exec_eq_next, outcomeState, requireSeeded_of_unseeded s _ h]

/-- Settles O22: the check of `SEEDED` selects one of two next states, and each is a single update. -/
theorem advanceRepeatsTheDrawStep : Obligations.AdvanceRepeatsTheDrawStep := fun count _ =>
  ⟨decode_advanceWord count, exec_advance_of_seeded count, exec_advance_of_unseeded count⟩

/-- Settles O23: the case of no draw steps, which leave the registers as they are. -/
theorem advanceZeroIsNoOp : Obligations.AdvanceZeroIsNoOp := by
  intro s
  obtain ⟨-, hseeded, hunseeded⟩ := advanceRepeatsTheDrawStep 0#64 s
  exact ⟨hseeded, hunseeded⟩

/-! ### `ADVANCE` and repeated `DRAW` commands -/

/-- No command reads the response on the port, and every command replaces it. -/
theorem exec_setRsp (i : Instr) (r : Option Response) (s : State) : exec i (s.setRsp r) = exec i s := by
  cases i <;> rfl

/-- What a sequence of draws leaves, but for the response of the last one. -/
theorem iterate_drawSeeded_setRsp (n : Nat) (r : Option Response) (s : State) :
    (drawSeeded^[n] s).setRsp r = (s.setGen (drawMany n s.gen)).setRsp r := by
  induction n generalizing s with
  | zero => rfl
  | succ n ih => exact ih (drawSeeded s)

/-- R133: `ADVANCE count` is `count` draws with the response `OK` 0 in place of the last draw's. -/
theorem advanceSeeded_eq_iterate_drawSeeded (count : DWord) (s : State) :
    advanceSeeded count s = (drawSeeded^[count.toNat] s).setRsp (some ⟨.ok, 0#64⟩) :=
  (iterate_drawSeeded_setRsp count.toNat _ s).symm

/-- Advancing composes, as draws add up, while the sum of the counts does not wrap. -/
theorem advanceSeeded_advanceSeeded {a b : DWord} (hab : a.toNat + b.toNat < 2 ^ 64) (s : State) :
    advanceSeeded b (advanceSeeded a s) = advanceSeeded (a + b) s := by
  have hgen : drawMany (a + b).toNat s.gen = drawMany b.toNat (drawMany a.toNat s.gen) := by
    rw [BitVec.toNat_add_of_lt hab, drawMany_add]
  rw [advanceSeeded, advanceSeeded_gen, ← hgen]
  rfl

/-- Settles O25: the two final states differ in the response alone, which no later command reads. -/
theorem advanceEqualsRepeatedDraws : Obligations.AdvanceEqualsRepeatedDraws := by
  refine ⟨fun count s h => ?draws, fun a b s h hab => ?composes⟩
  case draws =>
    refine ⟨_, _, exec_advance_of_seeded count h, drawCommands_of_seeded count.toNat h, ?_⟩
    rw [advanceSeeded_eq_iterate_drawSeeded]
    exact ⟨rfl, rfl, exec_setRsp .draw _ _, exec_setRsp .total _ _⟩
  case composes =>
    have hnext : (advanceSeeded a s).seeded = true := (advanceSeeded_seeded s a).trans h
    refine ⟨_, _, exec_advance_of_seeded a h, exec_advance_of_seeded b hnext, ?_⟩
    rw [exec_advance_of_seeded (a + b) h, advanceSeeded_advanceSeeded hab]

/-! ### The registers in closed form -/

/-- `n` draws raise the counter by `n` modulo 2^64 (R121, R132). -/
theorem drawMany_dc (n : Nat) (g : GeneratorState) :
    (drawMany n g).dc.toNat = (g.dc.toNat + n) % 2 ^ 64 := by
  induction n with
  | zero => exact (Nat.mod_eq_of_lt g.dc.isLt).symm
  | succ n ih =>
    rw [drawMany_succ', drawNext_dc, add64, BitVec.toNat_add, ih, BitVec.toNat_ofNat]
    omega

/-- Settles O24: the registers of `count` draws, with the cursor in R132's form, as `x % 624 = x - 624 * (x / 624)`. -/
theorem advanceClosedForm : Obligations.AdvanceClosedForm := by
  intro count s hs hcur
  refine ⟨_, _, exec_advance_of_seeded count hs, drawCommands_of_seeded count.toNat hs,
    iterate_drawSeeded_gen count.toNat s, fun hzero => ?unchanged, fun hpos => ?advanced⟩
  case unchanged => rw [advanceSeeded_gen, hzero, drawMany_zero]
  case advanced =>
    intro twists
    have hcursor : (advanceSeeded count s).gen.cur.val = (s.gen.cur.val + count.toNat - 1) % 624 + 1 :=
      drawMany_cur hcur count.toNat
    refine ⟨?_, ?_, ?_, drawMany_dc count.toNat s.gen, drawMany_mt hcur count.toNat⟩ <;> omega

end Sys2Proof.Machine
end

section
/-!
The draw counter (`spec/44_total.md` R145 to R147): the command `TOTAL`, its insertion into a command sequence, and the
difference of two counts as the logical draws between them.
-/

namespace Sys2Proof.Machine

/-! ### The command -/

theorem decode_totalWord : decode (commandWord 0x04#8 0#64) = .ok .total := by decide

theorem exec_total_of_seeded {s : State} (h : s.seeded = true) : exec .total s = .next (totalSeeded s) := by
  rw [exec_eq_next, outcomeState, requireSeeded_of_seeded s totalSeeded h]

theorem exec_total_of_unseeded {s : State} (h : s.seeded = false) :
    exec .total s = .next (raiseException .unseeded s) := by
  rw [exec_eq_next, outcomeState, requireSeeded_of_unseeded s totalSeeded h]

/-- Settles O27: the check of `SEEDED` selects one of two next states, and each changes the response alone. -/
theorem totalReturnsTheCounter : Obligations.TotalReturnsTheCounter :=
  ⟨decode_totalWord, fun _ => ⟨exec_total_of_seeded, exec_total_of_unseeded⟩⟩

/-! ### One atomic step -/

theorem transaction_totalWord (g : GeneratorState) :
    transaction (encode .total) g true = (g, true, ⟨.ok, g.dc⟩) := by
  simp only [transaction, encode, decode_totalWord, if_pos]

theorem transaction_seedWord (seed : Word) (g : GeneratorState) (b : Bool) :
    transaction (encode (.seed seed)) g b = (seedState seed, true, ⟨.ok, 0#64⟩) := by
  simp only [transaction, encode, decode_seedWord]

/-- No word unseeds a core (R28). -/
theorem transaction_of_seeded (w : PortWord) (g : GeneratorState) :
    ∃ g' r, transaction w g true = (g', true, r) := by
  unfold transaction
  cases decode w with
  | error e => exact ⟨_, _, rfl⟩
  | ok i =>
    cases i with
    | seed n | draw | advance n | total => exact ⟨_, _, rfl⟩

/-- A word other than `SEED` does to the registers of a seeded core what its logical draws do (R27). -/
theorem transaction_of_not_seed {w : PortWord} (h : isSeedWord w = false) (g : GeneratorState) :
    ∃ r, transaction w g true = (drawMany (logicalDraws w) g, true, r) := by
  unfold isSeedWord at h
  unfold transaction logicalDraws
  generalize decode w = d at h ⊢
  cases d with
  | error e => exact ⟨_, rfl⟩
  | ok i =>
    cases i with
    | seed n => cases h
    | draw | advance n | total => exact ⟨_, rfl⟩

/-! ### Sequences of atomic steps -/

section
variable {w : PortWord} {ws : List PortWord} {g g' : GeneratorState} {b b' : Bool} {r : Response} {rs : List Response}

theorem transactions_cons (h : transaction w g b = (g', b', r)) (ws : List PortWord) :
    transactions (w :: ws) g b =
      ((transactions ws g' b').1, (transactions ws g' b').2.1, r :: (transactions ws g' b').2.2) := by
  rw [transactions, h]

/-- A sequence goes on from where its first part ends. -/
theorem transactions_append (h : transactions ws g b = (g', b', rs)) (ws' : List PortWord) :
    transactions (ws ++ ws') g b =
      ((transactions ws' g' b').1, (transactions ws' g' b').2.1, rs ++ (transactions ws' g' b').2.2) := by
  induction ws generalizing g b rs with
  | nil =>
    cases h
    rfl
  | cons w ws ih =>
    cases h
    rw [List.cons_append, transactions, ih rfl]
    rfl

/-- Every word has one response. -/
theorem transactions_length (ws : List PortWord) (g : GeneratorState) (b : Bool) :
    (transactions ws g b).2.2.length = ws.length := by
  induction ws generalizing g b with
  | nil => rfl
  | cons w ws ih => exact congrArg (· + 1) (ih _ _)

/-- A `TOTAL` at the end of a sequence that leaves the core seeded responds with the counter as it is there. -/
theorem transactions_append_total (h : transactions ws g b = (g', true, rs)) :
    (transactions (ws ++ [encode .total]) g b).2.2 = rs ++ [⟨.ok, g'.dc⟩] := by
  rw [transactions_append h, transactions_cons (transaction_totalWord g')]
  rfl

end

/-- A sequence of commands leaves a seeded core seeded. -/
theorem transactions_of_seeded (ws : List PortWord) (g : GeneratorState) :
    ∃ g' rs, transactions ws g true = (g', true, rs) := by
  induction ws generalizing g with
  | nil => exact ⟨g, [], rfl⟩
  | cons w ws ih =>
    obtain ⟨g₁, r, hw⟩ := transaction_of_seeded w g
    obtain ⟨g₂, rs, hws⟩ := ih g₁
    exact ⟨g₂, r :: rs, by rw [transactions_cons hw, hws]⟩

/-- Without a `SEED` among them, the commands do to the registers what their logical draws do together. -/
theorem transactions_of_no_seed {ws : List PortWord} (h : ∀ w ∈ ws, isSeedWord w = false) (g : GeneratorState) :
    ∃ rs, transactions ws g true = (drawMany (ws.map logicalDraws).sum g, true, rs) := by
  induction ws generalizing g with
  | nil => exact ⟨[], rfl⟩
  | cons w ws ih =>
    obtain ⟨hw, hws⟩ := List.forall_mem_cons.1 h
    obtain ⟨r, hr⟩ := transaction_of_not_seed hw g
    obtain ⟨rs, hrs⟩ := ih hws (drawMany (logicalDraws w) g)
    refine ⟨r :: rs, ?_⟩
    rw [transactions_cons hr, hrs, List.map_cons, List.sum_cons, drawMany_add]

/-! ### `TOTAL` in a sequence -/

/-- Settles O28: the response of the first `TOTAL` is not read by the second; and after the words before it, a `TOTAL`
leaves the registers as they are, so the words after it run as if it were not there. -/
theorem insertingTotalChangesNothing : Obligations.InsertingTotalChangesNothing := by
  refine ⟨fun s hs => ?twice, fun before after g => ?inserted⟩
  case twice =>
    have hfirst : exec .total s = .next (totalSeeded s) := exec_total_of_seeded hs
    exact ⟨_, hfirst, (exec_setRsp .total _ s).trans hfirst⟩
  case inserted =>
    obtain ⟨g', rs, hbefore⟩ := transactions_of_seeded before g
    have hlength : rs.length = before.length := by
      simpa only [hbefore] using transactions_length before g true
    refine ⟨⟨.ok, g'.dc⟩, ?_⟩
    rw [transactions_append hbefore, transactions_append hbefore, transactions_cons (transaction_totalWord g')]
    refine ⟨rfl, rfl, ?_⟩
    rw [List.take_left' hlength, List.drop_left' hlength]

/-- Settles O29: between the two commands the registers make the logical draws of the words there, and each draw counts
one modulo 2^64; a `SEED` starts from 0. -/
theorem totalCountsLogicalDraws : Obligations.TotalCountsLogicalDraws := by
  refine ⟨fun ws g hws => ?between, fun ws g seeded seed hws => ?sinceSeed⟩
  case between =>
    obtain ⟨rs, hrs⟩ := transactions_of_no_seed hws g
    have hrun : transactions (encode .total :: ws) g true =
        (drawMany (ws.map logicalDraws).sum g, true, ⟨.ok, g.dc⟩ :: rs) := by
      rw [transactions_cons (transaction_totalWord g), hrs]
    have hcount := drawMany_dc (ws.map logicalDraws).sum g
    refine ⟨g.dc, _, rs, transactions_append_total hrun, hcount, fun hlt => ?_⟩
    rw [hcount, Nat.mod_eq_of_lt hlt]
    exact ⟨rfl, Nat.le_add_right _ _⟩
  case sinceSeed =>
    obtain ⟨rs, hrs⟩ := transactions_of_no_seed hws (seedState seed)
    have hrun : transactions (encode (.seed seed) :: ws) g seeded =
        (drawMany (ws.map logicalDraws).sum (seedState seed), true, ⟨.ok, 0#64⟩ :: rs) := by
      rw [transactions_cons (transaction_seedWord seed g seeded), hrs]
    have hfresh : (seedState seed).dc.toNat = 0 := rfl
    refine ⟨_, _, transactions_append_total hrun, ?_⟩
    rw [drawMany_dc, hfresh, Nat.zero_add]

end Sys2Proof.Machine
end

section
/-!
The exceptions (`spec/60_exceptions.md` R150 to R157): which command raises `Unseeded` and when, and what an exception
leaves once its response is delivered.
-/

namespace Sys2Proof.Machine

/-! ### Status of the response -/

/-- On an unseeded core every command but `SEED` raises `Unseeded` (R155). -/
theorem outcomeState_of_unseeded {i : Instr} {s : State} (h : s.seeded = false) (hi : ∀ n : Word, i ≠ .seed n) :
    outcomeState i s = raiseException .unseeded s := by
  cases i with
  | seed n => exact absurd rfl (hi n)
  | draw | advance n | total => exact requireSeeded_of_unseeded s _ h

/-- Settles O30: a seeded core and `SEED` answer `OK`, and the commands that are left raise `Unseeded`. -/
theorem unseededIsRaisedExactlyThen : Obligations.UnseededIsRaisedExactlyThen := by
  intro i s
  cases h : s.seeded with
  | true => exact ⟨_, _, exec_eq_next i s, outcomeState_rsp_of_seeded i h, by simp⟩
  | false =>
    by_cases hi : ∀ n : Word, i ≠ .seed n
    · have hrsp : (outcomeState i s).rsp = some ⟨.errUnseeded, 0#64⟩ := by
        rw [outcomeState_of_unseeded h hi, raiseException_rsp, exceptionStatus_unseeded]
      exact ⟨_, _, exec_eq_next i s, hrsp, by simp [hi]⟩
    · obtain ⟨n, rfl⟩ : ∃ n : Word, i = .seed n := by simpa using hi
      exact ⟨_, _, exec_eq_next (.seed n) s, outcomeState_seed_rsp n s, by simp⟩

/-- Settles O32: the data is the command's `okData`. -/
theorem seededCoreAnswersOk : Obligations.SeededCoreAnswersOk := fun i s h =>
  ⟨_, _, exec_eq_next i s, outcomeState_rsp_of_seeded i h⟩

/-! ### An exception on the port -/

/-- A legal word is checked against `SEEDED` after it is decoded (R157). -/
theorem accept_of_unseeded {w : PortWord} {i : Instr} (hw : decode w = .ok i) {s : State} (h : s.seeded = false)
    (hi : ∀ n : Word, i ≠ .seed n) : accept w s = .next (raiseException .unseeded s) := by
  simp only [accept, hw, exec_eq_next, outcomeState_of_unseeded h hi]

/-- On a free port nothing of an exception stays once its response is delivered (R156): only the record has grown. -/
theorem deliver_raiseException (e : CoreException) (r : Response) {s : State} (h : s.rsp = none) :
    deliver r (raiseException e s) = s.setDelivered (s.delivered ++ [r]) := by
  change (s.setDelivered (s.delivered ++ [r])).setRsp none = _
  rw [← h]
  rfl

/-- Settles O31: in both cases the accepted word raises the exception with this status; the next edge delivers its
response. -/
theorem errorsChangeOnlyTheResponse : Obligations.ErrorsChangeOnlyTheResponse := by
  intro s c rest status hhost hrst hvalid hfree hcase
  obtain ⟨e, rfl, haccept⟩ : ∃ e, status = exceptionStatus e ∧
      accept c.cmdWord (s.setHost rest) = .next (raiseException e (s.setHost rest)) := by
    obtain ⟨⟨_, hw⟩, rfl⟩ | ⟨i, hw, hs, hi, rfl⟩ := hcase
    · exact ⟨.illegalCommand, rfl, accept_of_illegal hw _⟩
    · exact ⟨.unseeded, rfl, accept_of_unseeded hw hs hi⟩
  refine ⟨_, (step_of_command hhost hrst hfree hvalid).trans haccept, rfl, fun d later hrest hdrst _ hready => ?_⟩
  have hfree' : ((s.setHost rest).setHost later).rsp = none := hfree
  rw [step_of_delivery hrest hdrst (raiseException_rsp _ e) hready]
  exact congrArg Host.Outcome.next (deliver_raiseException e _ hfree')

end Sys2Proof.Machine
end

section
/-!
The encoder inverts the decoder (`spec/30_encoding.md` R62 to R65, R72).
-/

namespace Sys2Proof

/-- Settles O2: each command's word takes the decoder's branch of that command. -/
theorem decodeOfEncodeIsIdentity : Obligations.DecodeOfEncodeIsIdentity := by
  intro i
  cases i with
  | seed n => exact decode_seedWord n
  | draw => exact Machine.decode_drawWord
  | advance count => exact Machine.decode_advanceWord count
  | total => exact Machine.decode_totalWord

/-- With the reserved half zero, the `arg` of a `SEED` is its operand zero-extended (R64). -/
theorem zeroExtend_seedField {w : PortWord} (h : seedReservedField w = 0#32) :
    (seedField w).zeroExtend 64 = argField w := by
  rw [← seedFields_append, h]
  exact BitVec.setWidth_eq_append (by decide)

/-- Settles O3: in each branch that accepts, the tests of the decoder fix every bit outside the operand. -/
theorem encodeOfDecodeIsIdentity : Obligations.EncodeOfDecodeIsIdentity := by
  intro w i h
  have hw := decodesTo_decode w
  rw [h] at hw
  have hfields := commandWord_fields w
  cases hw with
  | seed hop hreserved => rw [encode, zeroExtend_seedField hreserved, ← hop, hfields]
  | draw hop harg => rw [encode, ← hop, ← harg, hfields]
  | advance hop => rw [encode, ← hop, hfields]
  | total hop harg => rw [encode, ← hop, ← harg, hfields]

/-- Settles O6: the decoder evaluates on each of the nine words. -/
theorem writtenWordsDecode : Obligations.WrittenWordsDecode := by
  unfold Obligations.WrittenWordsDecode
  decide

end Sys2Proof
end

section
/-!
The sequence of a seed (`spec/10_state.md` R25, R27): what the registers are after any number of draws.
-/

namespace Sys2Proof.Machine

/-- The registers are those of some seed after some number of draws (R123). -/
def IsDrawn (g : GeneratorState) : Prop := ∃ (seed : Word) (k : Nat), g = drawMany k (seedState seed)

theorem onSequence_iff (s : State) : OnSequence s ↔ SeededGen IsDrawn s := Iff.rfl

theorem isDrawn_seedState (seed : Word) : IsDrawn (seedState seed) := ⟨seed, 0, rfl⟩

theorem IsDrawn.drawNext {g : GeneratorState} : IsDrawn g → IsDrawn (drawNext g) := by
  rintro ⟨seed, k, rfl⟩
  exact ⟨seed, k + 1, (drawMany_succ' k _).symm⟩

/-- Settles O45: `SEED` starts a sequence and every draw goes one further on it. -/
theorem stepStaysOnTheSequence : Obligations.StepStaysOnTheSequence := by
  intro s t hs ht
  rw [onSequence_iff] at hs ⊢
  exact step_keeps_seededGen isDrawn_seedState (fun _ => IsDrawn.drawNext) hs ht

theorem reset_seeded : State.reset.seeded = false := rfl

/-- Settles O44: the core is unseeded, and the invariant speaks of a seeded one. -/
theorem cursorInRangeAtReset : Obligations.CursorInRangeAtReset :=
  (cursorInv_iff State.reset).2 (seededGen_of_unseeded reset_seeded)

/-- Settles O46: this invariant too says nothing of an unseeded core. -/
theorem onTheSequenceAtReset : Obligations.OnTheSequenceAtReset :=
  (onSequence_iff State.reset).2 (seededGen_of_unseeded reset_seeded)

/-- Settles O47: each draw counts one, and `SEED` starts the count at 0. -/
theorem counterIsTheNumberOfDraws : Obligations.CounterIsTheNumberOfDraws := by
  intro seed k
  have hfresh : (seedState seed).dc.toNat = 0 := rfl
  rw [drawMany_dc, hfresh, Nat.zero_add]

theorem phaseOf_eq_fresh_iff (g : GeneratorState) (k : Nat) : phaseOf g k = .fresh ↔ g.cur.val = 624 ∧ k = 0 := by
  unfold phaseOf
  split_ifs <;> simp [*]

theorem phaseOf_eq_exhausted_iff (g : GeneratorState) (k : Nat) :
    phaseOf g k = .exhausted ↔ g.cur.val = 624 ∧ k ≠ 0 := by
  unfold phaseOf
  split_ifs <;> simp [*]

theorem phaseOf_eq_active_iff (g : GeneratorState) (k : Nat) : phaseOf g k = .active ↔ g.cur.val ≠ 624 := by
  unfold phaseOf
  split_ifs <;> simp [*]

/-- Settles O48: after `k` draws `CUR` is `(k - 1) mod 624 + 1`, so it is 624 exactly when 624 divides `k`. -/
theorem phaseFollowsTheDraws : Obligations.PhaseFollowsTheDraws := by
  intro seed k
  have hcur := drawMany_seedState_cur seed k
  rw [phaseOf_eq_fresh_iff, phaseOf_eq_exhausted_iff, phaseOf_eq_active_iff]
  refine ⟨?_, ?_, ?_⟩ <;> omega

theorem GeneratorState.ext_toNat {g h : GeneratorState} (hmt : g.mt = h.mt) (hcur : g.cur.val = h.cur.val)
    (hdc : g.dc.toNat = h.dc.toNat) : g = h := by
  obtain ⟨mt, cur, dc⟩ := g
  obtain rfl : mt = h.mt := hmt
  obtain rfl : cur = h.cur := Fin.ext hcur
  obtain rfl : dc = h.dc := BitVec.eq_of_toNat_eq hdc
  rfl

/-- Settles O26: the three registers in closed form, each as the draws leave it. -/
theorem closedFormIsASkipEngine : Obligations.ClosedFormIsASkipEngine := by
  intro count g hcur
  by_cases hzero : count.toNat = 0
  · rw [closedFormEngine, if_pos hzero, hzero, drawMany_zero]
  · rw [closedFormEngine, if_neg hzero]
    exact GeneratorState.ext_toNat (drawMany_mt hcur _).symm (drawMany_cur hcur _).symm
      ((BitVec.toNat_add _ _).trans (drawMany_dc _ g).symm)

end Sys2Proof.Machine
end

section
/-!
Two cores with the same seed (`spec/40_seed.md` R93).
-/

namespace Sys2Proof.Machine

/-- A `DRAW` reads the generator alone: two cores with equal generators and equal responses stay so. -/
theorem iterate_drawSeeded_congr (n : Nat) {s t : State} (hgen : s.gen = t.gen) (hrsp : s.rsp = t.rsp) :
    (drawSeeded^[n] s).gen = (drawSeeded^[n] t).gen ∧ (drawSeeded^[n] s).rsp = (drawSeeded^[n] t).rsp := by
  induction n generalizing s t with
  | zero => exact ⟨hgen, hrsp⟩
  | succ n ih =>
    refine ih ?_ ?_
    · rw [drawSeeded_gen, drawSeeded_gen, hgen]
    · rw [drawSeeded_rsp, drawSeeded_rsp, hgen]

/-- Settles O12: `SEED` leaves the same generator and response in both cores, and the draws go on from there. -/
theorem sameSeedSameDraws : Obligations.SameSeedSameDraws := by
  intro seed s t n
  exact ⟨_, _, _, _, exec_eq_next _ s, exec_eq_next _ t, drawCommands_of_seeded n rfl, drawCommands_of_seeded n rfl,
    iterate_drawSeeded_congr n rfl rfl⟩

end Sys2Proof.Machine
end

section
/-!
Linearity of the tempering (`spec/42_draw_temper.md` R117).
-/

namespace Sys2Proof.Machine

/-- `f` is linear over XOR (R117). -/
def XorLinear (f : Word → Word) : Prop := ∀ a b, f (a ^^^ b) = f a ^^^ f b

theorem xorLinear_lsr (k : Nat) : XorLinear (lsr · k) := fun a b => BitVec.ushiftRight_xor_distrib a b k

theorem xorLinear_lsl32 (k : Nat) : XorLinear (lsl32 · k) := fun a b => BitVec.shiftLeft_xor_distrib a b k

/-- A mask selects bits, and so it distributes over XOR. -/
theorem XorLinear.and_mask {f : Word → Word} (hf : XorLinear f) (m : Word) : XorLinear (fun y => f y &&& m) := by
  intro a b
  simp only [hf a b]
  ext i hi
  simp [Bool.and_xor_distrib_right]

/-- The shape of each stage of R115: a word XOR a linear image of itself. -/
theorem XorLinear.self_xor {f : Word → Word} (hf : XorLinear f) : XorLinear (fun y => y ^^^ f y) := by
  intro a b
  simp only [hf a b]
  ac_rfl

theorem XorLinear.comp {f g : Word → Word} (hf : XorLinear f) (hg : XorLinear g) : XorLinear (f ∘ g) :=
  fun a b => (congrArg f (hg a b)).trans (hf (g a) (g b))

theorem xorLinear_temper : XorLinear temper :=
  have h1 : XorLinear temperStage1 := ((xorLinear_lsr temperU).and_mask temperD).self_xor
  have h2 : XorLinear temperStage2 := ((xorLinear_lsl32 temperS).and_mask temperB).self_xor
  have h3 : XorLinear temperStage3 := ((xorLinear_lsl32 temperT).and_mask temperC).self_xor
  have h4 : XorLinear temperStage4 := (xorLinear_lsr temperL).self_xor
  h4.comp (h3.comp (h2.comp h1))

/-- Settles O18: `temper` is composed of linear stages, and the four values are evaluated. -/
theorem temperIsLinear : Obligations.TemperIsLinear :=
  ⟨xorLinear_temper, by decide, by decide, by decide, by decide⟩

end Sys2Proof.Machine
end

section
/-!
Groups of twist steps (`spec/70_reset_and_hazards.md` R186): a group reads the array as it stood when the group started.
-/

namespace Sys2Proof.Machine

variable (old : Vector Word 624)

/-- One step of a group: its operands are read from the array `start`, as it stood when the group started (R186). -/
def groupStep (start : Vector Word 624) (i : Nat) (out : Vector Word 624) : Vector Word 624 :=
  writeMT out (wrapIndex i) (readMT (twistStepAt i start) (wrapIndex i))

theorem twistGroup_eq_forUp (lo n : Nat) (mt : Vector Word 624) : twistGroup lo n mt = forUp (groupStep mt) lo n mt :=
  rfl

/-- What a step writes is the same new word up to 227 steps ahead of the border between new and old words: its first two
operands are old or, in step 623, the new word 0, and its third stands 227 places back (R186). -/
theorem readMT_twistStepAt_ahead {lo i : Nat} (hlo : lo ≤ i) (hnear : i < lo + 227) (hi : i < 624) :
    readMT (twistStepAt i (partlyTwisted old lo)) (wrapIndex i) = readMT (twist old) (wrapIndex i) := by
  have hval : (wrapIndex i).val = i := wrapIndex_val_of_lt hi
  rw [twistStepAt, readMT_writeMT_same, ← twistNext_partlyTwisted old hi]
  simp only [readMT_partlyTwisted, wrapIndex_val, shiftM]
  congr 1
  · exact if_congr (by omega) rfl rfl
  · exact if_congr (by omega) rfl rfl
  · exact if_congr (by omega) rfl rfl

/-- So it moves the border as the step of the loop does. -/
theorem groupStep_partlyTwisted {lo i : Nat} (hlo : lo ≤ i) (hnear : i < lo + 227) (hi : i < 624) :
    groupStep (partlyTwisted old lo) i (partlyTwisted old i) = partlyTwisted old (i + 1) := by
  rw [groupStep, readMT_twistStepAt_ahead old hlo hnear hi, ← twistNext_partlyTwisted old hi]
  exact twistStepAt_partlyTwisted old hi

/-- `n` steps of a group that started at step `lo`, from its step `i` on. -/
theorem forUp_groupStep_partlyTwisted {lo i n : Nat} (hlo : lo ≤ i) (hnear : i + n ≤ lo + 227) (hi : i + n ≤ 624) :
    forUp (groupStep (partlyTwisted old lo)) i n (partlyTwisted old i) = partlyTwisted old (i + n) := by
  induction n generalizing i with
  | zero => rfl
  | succ n ih =>
    rw [forUp, groupStep_partlyTwisted old hlo (by omega) (by omega), ih (by omega) (by omega) (by omega),
      Nat.add_right_comm, Nat.add_assoc]

theorem twistGroup_partlyTwisted {lo n : Nat} (hn : n ≤ 227) (hlo : lo + n ≤ 624) :
    twistGroup lo n (partlyTwisted old lo) = partlyTwisted old (lo + n) := by
  rw [twistGroup_eq_forUp]
  exact forUp_groupStep_partlyTwisted old le_rfl (Nat.add_le_add_left hn lo) hlo

theorem twistGroups_partlyTwisted {lo : Nat} {sizes : List Nat} (hsizes : ∀ n ∈ sizes, n ≤ 227)
    (hlo : lo + sizes.sum ≤ 624) :
    twistGroups lo sizes (partlyTwisted old lo) = partlyTwisted old (lo + sizes.sum) := by
  induction sizes generalizing lo with
  | nil => rfl
  | cons n sizes ih =>
    obtain ⟨hn, hrest⟩ := List.forall_mem_cons.1 hsizes
    rw [List.sum_cons, ← Nat.add_assoc] at hlo ⊢
    rw [twistGroups, twistGroup_partlyTwisted old hn (by omega), ih hrest hlo]

/-- Settles O15: each group moves the border between new and old words by its size. -/
theorem twistGroupsOfAtMost227Agree : Obligations.TwistGroupsOfAtMost227Agree := by
  intro sizes mt hsum hsizes
  have h := twistGroups_partlyTwisted mt (lo := 0) hsizes (by omega)
  rwa [hsum, Nat.zero_add, partlyTwisted_start, partlyTwisted_end, ← twistInPlace_eq_twist] at h

end Sys2Proof.Machine
end

section
/-!
The edges of the ports (`spec/30_encoding.md` R60, R61; `spec/70_reset_and_hazards.md`): what each kind of edge does,
and when a register, `SEEDED` or a response can change.
-/

namespace Sys2Proof.Machine

/-! ### One edge of each kind -/

theorem cmdReady_eq_true_iff (s : State) (rst : Bool) : cmdReady s rst = true ↔ rst = false ∧ s.rsp = none := by
  simp [cmdReady]

/-- Every edge answers a next state: the cases are those of the host's inputs and of the port. -/
theorem step_next (s : State) : ∃ t, step s = .next t := by
  cases hhost : s.host with
  | nil => exact ⟨_, step_of_idle hhost⟩
  | cons c rest =>
    cases hrst : c.rst with
    | true => exact ⟨_, step_of_reset hhost hrst⟩
    | false =>
      cases hrsp : s.rsp with
      | some r =>
        cases hready : c.rspReady with
        | false => exact ⟨_, step_of_held hhost hrst hrsp hready⟩
        | true => exact ⟨_, step_of_delivery hhost hrst hrsp hready⟩
      | none =>
        cases hvalid : c.cmdValid with
        | false => exact ⟨_, step_of_no_command hhost hrst hrsp hvalid⟩
        | true => exact ⟨_, (step_of_command hhost hrst hrsp hvalid).trans (accept_eq_next _ _)⟩

/-- Settles O33: no branch of an edge ends in a fault or a refusal. -/
theorem stepAlwaysGoesOn : Obligations.StepAlwaysGoesOn := step_next

/-- Settles O34: the fields of `State.reset`. -/
theorem resetLeavesAnUnseededIdleCore : Obligations.ResetLeavesAnUnseededIdleCore := ⟨rfl, rfl, rfl⟩

/-- Settles O35: the edge is `resetEdge`, in any state. -/
theorem resetEdgeUnseedsTheCore : Obligations.ResetEdgeUnseedsTheCore := by
  intro s c rest hhost hrst
  obtain ⟨hseeded, hrsp, hrest, hdelivered, -⟩ := resetEdge_frame (s.setHost rest)
  refine ⟨by simp [cmdReady, hrst], _, step_of_reset hhost hrst, hseeded, ?_, hdelivered, hrest, ?_⟩
  · rw [rspValid, hrsp, Option.isSome_none]
  · exact (cmdReady_eq_true_iff _ _).2 ⟨rfl, hrsp⟩

/-- Settles O37: the two edges with a response on the port, each a single update. -/
theorem responseIsHeldUntilTaken : Obligations.ResponseIsHeldUntilTaken := fun _ _ _ _ hhost hrst hrsp =>
  ⟨by simp [cmdReady, hrsp], step_of_held hhost hrst hrsp, step_of_delivery hhost hrst hrsp⟩

/-- Settles O39: the edge with no command, and the host whose list has ended. -/
theorem idleCoreStaysAsItIs : Obligations.IdleCoreStaysAsItIs :=
  ⟨fun _ _ _ hhost hrst hvalid hrsp => step_of_no_command hhost hrst hrsp hvalid, fun _ => step_of_idle⟩

theorem accept_of_legal {w : PortWord} {i : Instr} (h : decode w = .ok i) (s : State) : accept w s = exec i s := by
  simp only [accept, h]

theorem eq_ok_of_toOption_eq_some {ε α : Type} {x : Except ε α} {a : α} (h : x.toOption = some a) : x = .ok a := by
  cases x with
  | error e => cases h
  | ok b => exact congrArg Except.ok (Option.some.inj h)

/-- A table word that is read as a command is decoded to it. -/
theorem decode_tableWord {nbits w : Nat} {i : Instr} (h : decodeTableWord nbits w = some i) :
    decode (tableWord nbits w) = .ok i := by
  unfold decodeTableWord at h
  exact eq_ok_of_toOption_eq_some (Option.ite_none_right_eq_some.1 h).2

/-- Settles O40: the edge accepts the word, and accepting a word runs its command or raises `IllegalCommand`. -/
theorem stepRunsTheDecodedCommand : Obligations.StepRunsTheDecodedCommand := by
  refine ⟨fun s c rest hhost hrst hvalid hrsp => ?port, fun s nbits w i hw => ?table⟩
  case port =>
    have hstep := step_of_command hhost hrst hrsp hvalid
    exact ⟨hstep, fun i hi => hstep.trans (accept_of_legal hi _), fun e he => hstep.trans (accept_of_illegal he _)⟩
  case table =>
    have hhost : (s.withFetchWord nbits w).host = presentCycle (tableWord nbits w) :: s.host := rfl
    exact (step_of_command hhost rfl rfl rfl).trans (accept_of_legal (decode_tableWord hw) _)

/-! ### What can change `SEEDED`, the registers and the responses -/

/-- Only a `SEED` seeds an unseeded core (R28). -/
theorem decode_of_transaction_seeds {w : PortWord} {g : GeneratorState} (h : (transaction w g false).2.1 = true) :
    ∃ n, decode w = .ok (.seed n) := by
  unfold transaction at h
  cases hw : decode w with
  | error e => simp [hw] at h
  | ok i =>
    cases i with
    | seed n => exact ⟨n, rfl⟩
    | draw | advance n | total => simp [hw] at h

/-- An accepted word leaves a seeded core seeded (R28). -/
theorem acceptedState_seeded_of_seeded (w : PortWord) {s : State} (h : s.seeded = true) :
    (acceptedState w s).seeded = true := by
  obtain ⟨g', r, hw⟩ := transaction_of_seeded w s.gen
  rw [(acceptedState_eq_transaction w s).2.1, h, hw]

/-- An edge that changes the generator registers or `SEEDED` is a reset or accepts a word (R192). -/
theorem step_changes_registers {s t : State} (ht : step s = .next t) (hne : t.gen ≠ s.gen ∨ t.seeded ≠ s.seeded) :
    ∃ c rest, s.host = c :: rest ∧
      ((c.rst = true ∧ t.seeded = false) ∨
       (c.rst = false ∧ s.rsp = none ∧ c.cmdValid = true ∧ t = acceptedState c.cmdWord (s.setHost rest))) := by
  obtain ⟨-, rfl⟩ | ⟨c, rest, hhost, hcase⟩ := step_cases ht
  · simp at hne
  refine ⟨c, rest, hhost, ?_⟩
  obtain ⟨hrst, rfl⟩ | ⟨-, r, -, ⟨-, rfl⟩ | ⟨-, rfl⟩⟩ | ⟨hrst, hrsp, ⟨-, rfl⟩ | ⟨hvalid, rfl⟩⟩ := hcase
  · exact .inl ⟨hrst, (resetEdge_frame _).1⟩
  · simp at hne
  · obtain ⟨hgen, hseeded, -⟩ := deliver_frame r (s.setHost rest)
    simp [hgen, hseeded] at hne
  · simp at hne
  · exact .inr ⟨hrst, hrsp, hvalid, rfl⟩

/-- Settles O38: both kinds of edge are named in the statement. -/
theorem noChangeWithoutCommandOrReset : Obligations.NoChangeWithoutCommandOrReset := by
  intro s t ht hne
  obtain ⟨c, rest, hhost, ⟨hrst, -⟩ | ⟨hrst, hrsp, hvalid, -⟩⟩ := step_changes_registers ht hne
  · exact ⟨c, rest, hhost, .inl hrst⟩
  · exact ⟨c, rest, hhost, .inr ⟨hvalid, (cmdReady_eq_true_iff s _).2 ⟨hrst, hrsp⟩⟩⟩

/-- Settles O36: of the two edges that change `SEEDED`, an accepted word never clears it and sets it only as `SEED`. -/
theorem onlyResetClearsOnlySeedSets : Obligations.OnlyResetClearsOnlySeedSets := by
  refine fun s t ht => ⟨fun hs hts => ?clears, fun hs hts => ?sets⟩ <;>
    obtain ⟨c, rest, hhost, ⟨hrst, hreset⟩ | ⟨hrst, hrsp, hvalid, rfl⟩⟩ :=
      step_changes_registers ht (.inr (by simp [hs, hts]))
  case clears.inl => exact ⟨c, rest, hhost, hrst⟩
  case clears.inr => exact Bool.noConfusion (hts.symm.trans (acceptedState_seeded_of_seeded c.cmdWord hs))
  case sets.inl => exact Bool.noConfusion (hreset.symm.trans hts)
  case sets.inr =>
    rw [(acceptedState_eq_transaction c.cmdWord _).2.1, State.setHost_seeded, hs] at hts
    obtain ⟨n, hn⟩ := decode_of_transaction_seeds hts
    exact ⟨c, rest, n, hhost, hrst, hvalid, hrsp, hn⟩

/-- What an accepting edge leaves (R61 item 2). -/
theorem step_of_accepted {s t : State} {c : HostCycle} {rest : List HostCycle} (ht : step s = .next t)
    (hhost : s.host = c :: rest) (hvalid : c.cmdValid = true) (hready : cmdReady s c.rst = true) :
    t.rsp = some (transaction c.cmdWord s.gen s.seeded).2.2 ∧ t.delivered = s.delivered := by
  obtain ⟨hrst, hrsp⟩ := (cmdReady_eq_true_iff s c.rst).1 hready
  rw [step_of_command hhost hrst hrsp hvalid, accept_eq_next] at ht
  obtain rfl := Host.Outcome.next.inj ht
  exact ⟨(acceptedState_eq_transaction c.cmdWord (s.setHost rest)).2.2,
    (acceptedState_frame c.cmdWord (s.setHost rest)).2.1⟩

/-- An edge that accepts no word leaves the port as it was or clears it; and only a delivery adds to the record. -/
theorem step_port_cases {s t : State} (ht : step s = .next t) :
    (∃ c rest, s.host = c :: rest ∧ c.cmdValid = true ∧ cmdReady s c.rst = true) ∨
    ((t.rsp = s.rsp ∨ t.rsp = none) ∧ t.delivered = s.delivered) ∨
    ∃ c rest r, s.host = c :: rest ∧ c.rst = false ∧ c.rspReady = true ∧ s.rsp = some r ∧ t.rsp = none ∧
      t.delivered = s.delivered ++ [r] := by
  obtain ⟨-, rfl⟩ | ⟨c, rest, hhost, hcase⟩ := step_cases ht
  · exact .inr (.inl ⟨.inl rfl, rfl⟩)
  obtain ⟨hrst, rfl⟩ | ⟨hrst, r, hrsp, ⟨-, rfl⟩ | ⟨hready, rfl⟩⟩ | ⟨hrst, hrsp, ⟨-, rfl⟩ | ⟨hvalid, rfl⟩⟩ := hcase
  · exact .inr (.inl ⟨.inr rfl, rfl⟩)
  · exact .inr (.inl ⟨.inl rfl, rfl⟩)
  · exact .inr (.inr ⟨c, rest, r, hhost, hrst, hready, hrsp, rfl, rfl⟩)
  · exact .inr (.inl ⟨.inl rfl, rfl⟩)
  · exact .inl ⟨c, rest, hhost, hvalid, (cmdReady_eq_true_iff s _).2 ⟨hrst, hrsp⟩⟩

/-- Settles O52: the edge accepts a word, or leaves the port and the record, or clears the port, or delivers. -/
theorem responsesComeOnlyFromAcceptedWords : Obligations.ResponsesComeOnlyFromAcceptedWords := by
  intro s t ht
  refine ⟨fun r hr => ?onPort, fun c rest hhost => step_of_accepted ht hhost, fun hne => ?recorded⟩ <;>
    obtain ⟨c, rest, hhost, hvalid, hready⟩ | ⟨hport, hsame⟩ | hdelivery := step_port_cases ht
  case onPort.inl =>
    have hrsp := (step_of_accepted ht hhost hvalid hready).1
    exact .inr ⟨c, rest, hhost, hvalid, hready, Option.some.inj (hr.symm.trans hrsp)⟩
  case onPort.inr.inl =>
    rcases hport with hkept | hcleared
    · exact .inl (hkept.symm.trans hr)
    · cases hcleared.symm.trans hr
  case onPort.inr.inr =>
    obtain ⟨_, _, _, _, _, _, _, hcleared, _⟩ := hdelivery
    cases hcleared.symm.trans hr
  case recorded.inl => exact absurd (step_of_accepted ht hhost hvalid hready).2 hne
  case recorded.inr.inl => exact absurd hsame hne
  case recorded.inr.inr => exact hdelivery

end Sys2Proof.Machine
end

section
/-!
The registers that each command may write (`spec/10_state.md` R22).
-/

namespace Sys2Proof.Machine

/-- A draw inside the block does not twist, so neither do as many draws as fit into it (R22, R103). -/
theorem drawMany_mt_of_le {g : GeneratorState} {n : Nat} (h : g.cur.val + n ≤ 624) : (drawMany n g).mt = g.mt := by
  induction n generalizing g with
  | zero => rfl
  | succ n ih =>
    have hactive : g.cur.val ≠ 624 := by omega
    have hcur : (drawNext g).cur.val = g.cur.val + 1 := by rw [drawNext_cur, if_neg hactive]
    rw [drawMany_succ, ih (by omega), drawNext_mt, if_neg hactive]

/-- What `Unseeded` and a command's seeded branch `k` both leave alone, the command leaves alone. -/
theorem requireSeeded_leaves {α : Type} (f : State → α) {k : State → State} {s : State}
    (hraise : f (raiseException .unseeded s) = f s) (hk : f (k s) = f s) : f (requireSeeded k s) = f s := by
  cases h : s.seeded with
  | false => rw [requireSeeded_of_unseeded s k h, hraise]
  | true => rw [requireSeeded_of_seeded s k h, hk]

theorem requireSeeded_seeded_eq {k : State → State} {s : State} (hk : (k s).seeded = s.seeded) :
    (requireSeeded k s).seeded = s.seeded :=
  requireSeeded_leaves State.seeded rfl hk

theorem requireSeeded_mt_eq {k : State → State} {s : State} (hk : (k s).gen.mt = s.gen.mt) :
    (requireSeeded k s).gen.mt = s.gen.mt :=
  requireSeeded_leaves (fun t => t.gen.mt) rfl hk

/-- Settles O42: behind the check of `SEEDED` each command's seeded branch writes only its registers, and `Unseeded`
writes none. -/
theorem commandsWriteOnlyTheirRegisters : Obligations.CommandsWriteOnlyTheirRegisters := by
  intro i s
  obtain ⟨hhost, hdelivered, hresets⟩ := outcomeState_frame s i
  refine ⟨_, exec_eq_next i s, hhost, hdelivered, hresets, ?total, ?draw, ?advance, ?unseeded⟩
  case total =>
    rintro rfl
    exact ⟨outcomeState_total_gen s, requireSeeded_seeded_eq (totalSeeded_seeded s)⟩
  case draw =>
    rintro rfl
    refine ⟨requireSeeded_seeded_eq (drawSeeded_seeded s), fun hactive => requireSeeded_mt_eq ?_⟩
    rw [drawSeeded_gen, drawNext_mt, if_neg hactive]
  case advance =>
    rintro n rfl
    refine ⟨requireSeeded_seeded_eq (advanceSeeded_seeded s n), fun hfits => requireSeeded_mt_eq ?_⟩
    rw [advanceSeeded_gen, drawMany_mt_of_le hfits]
  case unseeded =>
    intro hs hi
    rw [outcomeState_of_unseeded hs hi]
    exact ⟨raiseException_gen s _, hs⟩

end Sys2Proof.Machine
end

section
/-!
A run of the ports as a sequence of atomic steps (`spec/30_encoding.md` R61).
-/

namespace Sys2Proof.Machine

/-- `s` after the atomic steps of `ws` (R61), every response delivered and the host's list at `later`. -/
def afterTransactions (ws : List PortWord) (later : List HostCycle) (s : State) : State :=
  { s with
    gen := (transactions ws s.gen s.seeded).1
    seeded := (transactions ws s.gen s.seeded).2.1
    host := later
    delivered := s.delivered ++ (transactions ws s.gen s.seeded).2.2 }

theorem afterTransactions_nil (s : State) : afterTransactions [] s.host s = s := by
  simp [afterTransactions, transactions]

/-- The steps of the first word, then those of the others. -/
theorem afterTransactions_cons (w : PortWord) (ws : List PortWord) (later middle : List HostCycle) (s : State) :
    afterTransactions (w :: ws) later s = afterTransactions ws later (afterTransactions [w] middle s) := by
  simp [afterTransactions, transactions]

theorem deliver_eq (r : Response) (s : State) :
    deliver r s = ⟨s.gen, s.seeded, none, s.host, s.delivered ++ [r], s.resets⟩ := rfl

/-- A free port that accepts a word and delivers its response is free again, and the two edges used up two cycles of the
host. -/
theorem deliver_acceptedState (w : PortWord) {s : State} (hrsp : s.rsp = none) (middle later : List HostCycle) :
    deliver (transaction w s.gen s.seeded).2.2 ((acceptedState w (s.setHost middle)).setHost later) =
      afterTransactions [w] later s := by
  obtain ⟨hgen, hseeded, -⟩ := acceptedState_eq_transaction w (s.setHost middle)
  obtain ⟨-, hdelivered, hresets⟩ := acceptedState_frame w (s.setHost middle)
  simp [deliver_eq, hgen, hseeded, hdelivered, hresets, hrsp, afterTransactions, transactions]

/-- The two edges of a word: the first accepts it, the second delivers its response (log entry 3). -/
theorem run_present_take {w : PortWord} {s : State} {later : List HostCycle} (hrsp : s.rsp = none)
    (hhost : s.host = presentCycle w :: takeCycle :: later) (n : Nat) :
    Sys2Proof.core.run (n + 2) s = Sys2Proof.core.run n (afterTransactions [w] later s) := by
  have haccept : step s = .next (acceptedState w (s.setHost (takeCycle :: later))) :=
    (step_of_command hhost rfl hrsp rfl).trans (accept_eq_next w _)
  have hresponse := (acceptedState_eq_transaction w (s.setHost (takeCycle :: later))).2.2
  have hdeliver := step_of_delivery (acceptedState_frame w _).1 rfl hresponse rfl
  rw [run_of_step _ haccept, run_of_step _ hdeliver]
  exact congrArg (Sys2Proof.core.run n) (deliver_acceptedState w hrsp _ later)

/-- Settles O41: word by word, two edges each, as `transactions` goes. -/
theorem portRefinesAtomicTransactions : Obligations.PortRefinesAtomicTransactions := by
  intro ws s hrsp hhost
  change Sys2Proof.core.run (2 * ws.length) s = .next (afterTransactions ws [] s)
  induction ws generalizing s with
  | nil =>
    have hend : s.host = [] := hhost
    rw [← hend, afterTransactions_nil]
    rfl
  | cons w ws ih =>
    have hrest := ih (afterTransactions [w] (hostProgram ws) s) hrsp rfl
    rw [← afterTransactions_cons] at hrest
    exact (run_present_take hrsp hhost _).trans hrest

end Sys2Proof.Machine
end

section
/-!
Two cores that the host cannot tell apart (`spec/10_state.md` R33): no edge lets it tell them apart later.
-/

namespace Sys2Proof.Machine

/-- What an atomic step gives an unseeded core does not depend on its registers (R33): not the response, not `SEEDED`,
and if the step seeds the core, not the registers it leaves. -/
theorem transaction_unseeded_congr (w : PortWord) (g g' : GeneratorState) :
    (transaction w g false).2 = (transaction w g' false).2 ∧
      ((transaction w g false).2.1 = true → (transaction w g false).1 = (transaction w g' false).1) := by
  unfold transaction
  cases decode w with
  | error e => exact ⟨rfl, Bool.noConfusion⟩
  | ok i =>
    cases i with
    | seed n => exact ⟨rfl, fun _ => rfl⟩
    | draw | advance n | total => exact ⟨rfl, Bool.noConfusion⟩

theorem transaction_congr (w : PortWord) {g g' : GeneratorState} {b : Bool} (h : b = true → g = g') :
    (transaction w g b).2 = (transaction w g' b).2 ∧
      ((transaction w g b).2.1 = true → (transaction w g b).1 = (transaction w g' b).1) := by
  cases b with
  | false => exact transaction_unseeded_congr w g g'
  | true => rw [h rfl]; exact ⟨rfl, fun _ => rfl⟩

theorem LooksSame.setHost {s t : State} (h : LooksSame s t) (rest : List HostCycle) :
    LooksSame (s.setHost rest) (t.setHost rest) := by
  obtain ⟨hseeded, hrsp, -, hdelivered, hgen⟩ := h
  exact ⟨hseeded, hrsp, rfl, hdelivered, hgen⟩

/-- A reset leaves free values in the registers, and unseeds the core. -/
theorem LooksSame.resetEdge {s t : State} (h : LooksSame s t) : LooksSame (resetEdge s) (resetEdge t) := by
  obtain ⟨-, -, hhost, hdelivered, -⟩ := h
  exact ⟨rfl, rfl, hhost, hdelivered, Bool.noConfusion⟩

theorem LooksSame.deliver {s t : State} (h : LooksSame s t) (r : Response) : LooksSame (deliver r s) (deliver r t) := by
  obtain ⟨hseeded, -, hhost, hdelivered, hgen⟩ := h
  exact ⟨hseeded, rfl, hhost, congrArg (· ++ [r]) hdelivered, hgen⟩

theorem LooksSame.acceptedState {s t : State} (h : LooksSame s t) (w : PortWord) :
    LooksSame (acceptedState w s) (acceptedState w t) := by
  obtain ⟨hseeded, -, hhost, hdelivered, hgen⟩ := h
  obtain ⟨hsgen, hsseeded, hsrsp⟩ := acceptedState_eq_transaction w s
  obtain ⟨htgen, htseeded, htrsp⟩ := acceptedState_eq_transaction w t
  obtain ⟨hshost, hsdelivered, -⟩ := acceptedState_frame w s
  obtain ⟨hthost, htdelivered, -⟩ := acceptedState_frame w t
  obtain ⟨hsame, hregs⟩ := transaction_congr w hgen
  rw [← hseeded] at htgen htseeded htrsp
  refine ⟨?_, ?_, ?_, ?_, ?_⟩
  · rw [hsseeded, htseeded, hsame]
  · rw [hsrsp, htrsp, hsame]
  · rw [hshost, hthost, hhost]
  · rw [hsdelivered, htdelivered, hdelivered]
  · rw [hsseeded, hsgen, htgen]
    exact hregs

/-- An edge takes the same branch in both cores, as it looks at the host's inputs and the port alone. -/
theorem LooksSame.step {s t : State} (h : LooksSame s t) :
    ∃ s' t', step s = .next s' ∧ step t = .next t' ∧ LooksSame s' t' := by
  have ⟨_, hrsp, hhost, _, _⟩ := h
  obtain ⟨s', hs⟩ := step_next s
  obtain ⟨hnil, rfl⟩ | ⟨c, rest, hc, hcase⟩ := step_cases hs
  · exact ⟨_, _, hs, step_of_idle (hhost.symm.trans hnil), h⟩
  have hct : t.host = c :: rest := hhost.symm.trans hc
  have hrest := h.setHost rest
  obtain ⟨hrst, rfl⟩ | ⟨hrst, r, hr, ⟨hready, rfl⟩ | ⟨hready, rfl⟩⟩ |
    ⟨hrst, hr, ⟨hvalid, rfl⟩ | ⟨hvalid, rfl⟩⟩ := hcase
  · exact ⟨_, _, hs, step_of_reset hct hrst, hrest.resetEdge⟩
  · exact ⟨_, _, hs, step_of_held hct hrst (hrsp.symm.trans hr) hready, hrest⟩
  · exact ⟨_, _, hs, step_of_delivery hct hrst (hrsp.symm.trans hr) hready, hrest.deliver r⟩
  · exact ⟨_, _, hs, step_of_no_command hct hrst (hrsp.symm.trans hr) hvalid, hrest⟩
  · exact ⟨_, _, hs, (step_of_command hct hrst (hrsp.symm.trans hr) hvalid).trans (accept_eq_next _ _),
      hrest.acceptedState c.cmdWord⟩

/-- Settles O49: `LooksSame` is kept edge by edge. -/
theorem unseededContentsAreNeverObserved : Obligations.UnseededContentsAreNeverObserved := by
  intro n
  induction n with
  | zero => exact fun s t h => ⟨s, t, rfl, rfl, h⟩
  | succ n ih =>
    intro s t h
    obtain ⟨s', t', hs, ht, h'⟩ := h.step
    rw [run_of_step n hs, run_of_step n ht]
    exact ih s' t' h'

end Sys2Proof.Machine
end

section
/-!
The text form (`spec/30_encoding.md` R70): a line is read as the grammar says, and a text line by line.
-/

namespace Sys2Proof.Machine

/-! ### Numbers -/

theorem DigitsText.ne_nil {base : Nat} {cs : List Char} {n : Nat} (h : DigitsText base cs n) : cs ≠ [] := h.1

/-- No decimal number begins with `0x`. -/
theorem not_decimal_of_0x (cs : List Char) (n : Nat) : ¬ DigitsText 10 ('0' :: 'x' :: cs) n := by
  rw [← decimal_eq_some_iff (by simp)]
  simp [digitsFrom, decDigit]

theorem parseNumber_hex {cs : List Char} (h : cs ≠ []) :
    parseNumber ('0' :: 'x' :: cs) = digitsFrom 16 hexDigit 0 cs := by
  obtain ⟨c, cs, rfl⟩ := List.exists_cons_of_ne_nil h
  rfl

/-- What begins otherwise is read in decimal, and so is `0x` alone, which is then refused. -/
theorem parseNumber_decimal {cs : List Char} (hne : cs ≠ []) (h : ∀ hex, hex ≠ [] → cs ≠ '0' :: 'x' :: hex) :
    parseNumber cs = digitsFrom 10 decDigit 0 cs := by
  unfold parseNumber
  split
  · exact absurd rfl (h _ (by simp))
  · rfl
  · exact absurd rfl hne

theorem parseNumber_eq_some_iff (cs : List Char) (n : Nat) : parseNumber cs = some n ↔ NumberText cs n := by
  by_cases hhex : ∃ hex, hex ≠ [] ∧ cs = '0' :: 'x' :: hex
  · obtain ⟨hex, hne, rfl⟩ := hhex
    rw [parseNumber_hex hne, hexadecimal_eq_some_iff hne]
    constructor
    · exact fun h => .inr ⟨hex, rfl, h⟩
    · rintro (h | ⟨hex', e, h⟩)
      · exact absurd h (not_decimal_of_0x hex n)
      · cases e
        exact h
  · rcases eq_or_ne cs [] with rfl | hne
    · constructor
      · rintro ⟨⟩
      · rintro (h | ⟨_, ⟨⟩, -⟩)
        exact absurd rfl h.ne_nil
    · rw [parseNumber_decimal hne fun hex h e => hhex ⟨hex, h, e⟩, decimal_eq_some_iff hne]
      constructor
      · exact .inl
      · rintro (h | ⟨hex, e, h⟩)
        · exact h
        · exact absurd ⟨hex, h.ne_nil, e⟩ hhex

theorem parseRaw_eq_some_iff (cs : List Char) (n : Nat) : parseRaw cs = some n ↔ RawText cs n := by
  unfold parseRaw RawText
  split
  next hex =>
    simp only [List.cons.injEq, true_and, exists_eq_left', Option.ite_none_right_eq_some]
    refine and_congr_right fun hlen => hexadecimal_eq_some_iff ?_ n
    rintro rfl
    cases hlen
  next h =>
    constructor
    · rintro ⟨⟩
    · rintro ⟨hex, rfl, -⟩
      exact absurd rfl (h hex)

/-! ### Commands -/

theorem elim_eq_ok_iff (o : Option Nat) (f : Nat → AsmLine) (a : Option AsmLine) :
    (o.elim (.error .notALine) fun k => .ok (some (f k)) : Except AsmError (Option AsmLine)) = .ok a ↔
      ∃ n, o = some n ∧ a = some (f n) := by
  cases o <;> simp [eq_comm]

/-- `parseLine` reads the words of a line, its comment left out, as the command they write. -/
theorem parseLine_eq_ok_iff (line : List Char) (a : Option AsmLine) :
    parseLine line = .ok a ↔ CommandText a (tokensFrom [] (dropComment line)) := by
  unfold parseLine
  generalize tokensFrom [] (dropComment line) = ws
  constructor
  · intro h
    split at h
    case h_1 | h_3 | h_5 =>
      cases h
      rfl
    case h_2 t | h_4 t =>
      obtain ⟨n, hn, rfl⟩ := (elim_eq_ok_iff _ _ _).1 h
      exact ⟨t, rfl, (parseNumber_eq_some_iff t n).1 hn⟩
    case h_6 t =>
      obtain ⟨n, hn, rfl⟩ := (elim_eq_ok_iff _ _ _).1 h
      exact ⟨t, rfl, (parseRaw_eq_some_iff t n).1 hn⟩
    case h_7 => cases h
  · intro h
    cases a with
    | none =>
      cases h
      rfl
    | some cmd =>
      cases cmd with
      | draw | total =>
        cases h
        rfl
      | seed n | advance n =>
        obtain ⟨t, rfl, ht⟩ := h
        exact (elim_eq_ok_iff _ _ _).2 ⟨n, (parseNumber_eq_some_iff t n).2 ht, rfl⟩
      | raw n =>
        obtain ⟨t, rfl, ht⟩ := h
        exact (elim_eq_ok_iff _ _ _).2 ⟨n, (parseRaw_eq_some_iff t n).2 ht, rfl⟩

/-! ### Lines -/

/-- A word of the grammar: not empty, and with neither a blank nor the start of a comment in it. -/
def PlainWord (w : List Char) : Prop := w ≠ [] ∧ ∀ c ∈ w, ¬ (c = ' ' ∨ c = '\t') ∧ c ≠ ';'

theorem DigitsText.plainWord {base : Nat} {cs : List Char} {n : Nat} (hb : base ≤ 16) (h : DigitsText base cs n) :
    PlainWord cs :=
  ⟨h.ne_nil, DigitsText_plain hb h⟩

theorem PlainWord.zero_x {cs : List Char} (h : PlainWord cs) : PlainWord ('0' :: 'x' :: cs) := by
  refine ⟨by simp, ?_⟩
  simp only [List.forall_mem_cons]
  exact ⟨by decide, by decide, h.2⟩

theorem NumberText.plainWord {cs : List Char} {n : Nat} : NumberText cs n → PlainWord cs := by
  rintro (h | ⟨hex, rfl, h⟩)
  · exact h.plainWord (by decide)
  · exact (h.plainWord le_rfl).zero_x

theorem RawText.plainWord {cs : List Char} {n : Nat} : RawText cs n → PlainWord cs := by
  rintro ⟨hex, rfl, -, h⟩
  exact (h.plainWord le_rfl).zero_x

theorem plainWord_of_all {w : List Char} (hne : w ≠ [])
    (h : w.all (fun c => c != ' ' && c != '\t' && c != ';') = true) : PlainWord w := by
  refine ⟨hne, fun c hc => ?_⟩
  simpa [not_or, and_assoc] using List.all_eq_true.1 h c hc

/-- The names of the commands are plain, and so are the numbers. -/
theorem CommandText.plainWords {a : Option AsmLine} {ws : List (List Char)} (h : CommandText a ws) :
    ∀ w ∈ ws, PlainWord w := by
  cases a with
  | none =>
    cases h
    simp
  | some cmd =>
    cases cmd with
    | draw | total =>
      cases h
      exact List.forall_mem_singleton.2 (plainWord_of_all (by decide) (by decide))
    | seed n | advance n | raw n =>
      obtain ⟨t, rfl, ht⟩ := h
      exact List.forall_mem_cons.2
        ⟨plainWord_of_all (by decide) (by decide), List.forall_mem_singleton.2 ht.plainWord⟩

theorem IsBlank.no_semicolon {cs : List Char} (h : IsBlank cs) : ';' ∉ cs := by
  intro hc
  have hblank := h _ hc
  revert hblank
  decide

/-- Plain words and blanks hold no start of a comment. -/
theorem SpacedWords.no_semicolon {ws : List (List Char)} {cs : List Char} (hws : ∀ w ∈ ws, PlainWord w)
    (h : SpacedWords ws cs) : ';' ∉ cs := by
  induction ws generalizing cs with
  | nil => exact IsBlank.no_semicolon h
  | cons w ws ih =>
    obtain ⟨lead, rest, rfl, hlead, -, hspaced⟩ := h
    obtain ⟨hw, hrest⟩ := List.forall_mem_cons.1 hws
    have hword : ';' ∉ w := fun hc => (hw.2 _ hc).2 rfl
    simp [hlead.no_semicolon, hword, ih hrest hspaced]

/-- Settles O50: what stands before the comment is cut into the words of the grammar, and those write the command. -/
theorem parseLineReadsTheGrammar : Obligations.ParseLineReadsTheGrammar := by
  intro line a
  rw [parseLine_eq_ok_iff]
  constructor
  · intro h
    obtain ⟨tail, hline, htail⟩ := dropComment_append line
    exact ⟨_, tail, _, hline, htail, (tokensFrom_spaced _).1, h⟩
  · rintro ⟨body, tail, ws, rfl, htail, hspaced, hcommand⟩
    have hplain := hcommand.plainWords
    have hwords : tokensFrom [] body = ws :=
      tokensFrom_of_spaced (fun w hw => ⟨(hplain w hw).1, fun c hc => ((hplain w hw).2 c hc).1⟩) hspaced
    rw [dropComment_of_no_semicolon (hspaced.no_semicolon hplain) htail, hwords]
    exact hcommand

/-! ### The words of assembled commands -/

theorem assemble_of_not_wellFormed {a : AsmLine} (h : a.wellFormed = false) : assemble a = .error .outOfRange := by
  simp [assemble, h]

theorem assemble_seed {n : Nat} (h : n < 2 ^ 32) : assemble (.seed n) = .ok (encode (.seed (BitVec.ofNat 32 n))) :=
  if_pos (decide_eq_true h)

theorem assemble_advance {n : Nat} (h : n < 2 ^ 64) :
    assemble (.advance n) = .ok (encode (.advance (BitVec.ofNat 64 n))) :=
  if_pos (decide_eq_true h)

theorem assemble_raw {n : Nat} (h : n < 2 ^ 72) : assemble (.raw n) = .ok (BitVec.ofNat 72 n) :=
  if_pos (decide_eq_true h)

theorem encode_seed_toNat (n : Word) : (encode (.seed n)).toNat = 2 ^ 64 + n.toNat := by
  rw [encode, commandWord_toNat, BitVec.toNat_setWidth_of_le (by decide)]
  rfl

theorem encode_advance_toNat (n : DWord) : (encode (.advance n)).toNat = 3 * 2 ^ 64 + n.toNat := by
  rw [encode, commandWord_toNat]
  rfl

/-- Settles O9: a number in range is kept by the field's `BitVec.ofNat`, and one out of range is ill formed. -/
theorem assemblerEmitsTheCommand : Obligations.AssemblerEmitsTheCommand := by
  refine ⟨fun n h => ⟨_, assemble_seed h, ?_⟩, fun n h => ⟨_, assemble_advance h, ?_⟩,
    ⟨_, rfl, decode_drawWord⟩, ⟨_, rfl, decode_totalWord⟩,
    fun n h => ⟨_, assemble_raw h, ?_⟩, fun n h => ?_, fun n h => ?_, fun n h => ?_⟩
  · rw [encode_seed_toNat, BitVec.toNat_ofNat, Nat.mod_eq_of_lt h]
  · rw [encode_advance_toNat, BitVec.toNat_ofNat, Nat.mod_eq_of_lt h]
  · rw [BitVec.toNat_ofNat, Nat.mod_eq_of_lt h]
  all_goals exact assemble_of_not_wellFormed (decide_eq_false (Nat.not_lt.2 h))

/-! ### Texts -/

/-- A text with a first line assembles when that line has no command and the other lines assemble, or when its command
and the other lines do. -/
theorem assembleLines_cons_eq_ok_iff (line : List Char) (lines : List (List Char)) (ws : List PortWord) :
    assembleLines (line :: lines) = .ok ws ↔
      (parseLine line = .ok none ∧ assembleLines lines = .ok ws) ∨
      ∃ a w ws', parseLine line = .ok (some a) ∧ assemble a = .ok w ∧ assembleLines lines = .ok ws' ∧
        ws = w :: ws' := by
  rw [assembleLines]
  rcases parseLine line with _ | _ | a
  · simp
  · simp
  · cases ha : assemble a with
    | error e => simp [ha]
    | ok w => cases assembleLines lines <;> simp [ha, eq_comm]

/-- Each line parses, and `ws` are the words of the commands on them, one each. -/
def AssemblesTo (lines : List (List Char)) (ws : List PortWord) : Prop :=
  ∃ cmds : List (Option AsmLine), List.Forall₂ (fun line a => parseLine line = .ok a) lines cmds ∧
    List.Forall₂ (fun a w => assemble a = .ok w) (cmds.filterMap id) ws

theorem assemblesTo_nil_iff (ws : List PortWord) : AssemblesTo [] ws ↔ ws = [] := by
  simp [AssemblesTo]

theorem assemblesTo_cons_iff (line : List Char) (lines : List (List Char)) (ws : List PortWord) :
    AssemblesTo (line :: lines) ws ↔
      (parseLine line = .ok none ∧ AssemblesTo lines ws) ∨
      ∃ a w ws', parseLine line = .ok (some a) ∧ assemble a = .ok w ∧ AssemblesTo lines ws' ∧ ws = w :: ws' := by
  unfold AssemblesTo
  constructor
  · rintro ⟨_, hparse, hwords⟩
    obtain ⟨a | a, cmds, hline, hlines, rfl⟩ := List.forall₂_cons_left_iff.1 hparse
    · exact .inl ⟨hline, cmds, hlines, hwords⟩
    · obtain ⟨w, ws', hw, hws, rfl⟩ := List.forall₂_cons_left_iff.1 hwords
      exact .inr ⟨a, w, ws', hline, hw, ⟨cmds, hlines, hws⟩, rfl⟩
  · rintro (⟨hline, cmds, hlines, hws⟩ | ⟨a, w, ws', hline, hw, ⟨cmds, hlines, hws⟩, rfl⟩)
    · exact ⟨none :: cmds, .cons hline hlines, hws⟩
    · exact ⟨some a :: cmds, .cons hline hlines, .cons hw hws⟩

/-- Settles O51: the assembler and the lines' commands obey the same recursion on the list of lines. -/
theorem textAssemblesLineByLine : Obligations.TextAssemblesLineByLine := by
  intro lines
  change ∀ ws, assembleLines lines = .ok ws ↔ AssemblesTo lines ws
  induction lines with
  | nil => simp [assembleLines, assemblesTo_nil_iff, eq_comm]
  | cons line lines ih =>
    intro ws
    simp only [assembleLines_cons_eq_ok_iff, assemblesTo_cons_iff, ih]

end Sys2Proof.Machine
end
